-- ==== Sys2Proof/Word.lean ====
section
/-! DEFINITION. The word widths of the PMS5003 frame decoder (00_scope.md R9; 10_state.md R11; 20_memory.md R30;
30_encoding.md R55). Every value is unsigned. -/

namespace Sys2Proof

/-- One received byte, or one cell of the frame buffer (R9, R30). -/
abbrev Byte := BitVec 8

/-- A 16-bit field, length or checksum value (R7, R9). -/
abbrev Half := BitVec 16

/-- An address of the frame buffer, 0 to 31: "the index fits in 5 bits" (R30). -/
abbrev Addr := BitVec 5

/-- The width of the write offset `off`: "six bits wide" (R11). -/
abbrev Offset := BitVec 6

/-- A transaction word `cmd[11:0]` (R55). -/
abbrev Cmd := BitVec 12

end Sys2Proof
end

