-- ==== Sys2Proof/Config.lean ====
section
/-! DEFINITION. The fixed parameters of the block (00_scope.md R3 to R8), and what an unwritten buffer byte reads
as. The one OPEN parameter of the spec, `DIAG_SINK` (92_eei_decisions.md D10), is `DiagSink` in Safety.lean. -/

namespace Sys2Proof.Config

/-- `FRAME_LEN` (R3): the frame length and the capacity of the buffer. -/
abbrev frameLen : Nat := 32

/-- `MARKER1` (R4). -/
def marker1 : Byte := 0x42#8

/-- `MARKER2` (R4). -/
def marker2 : Byte := 0x4D#8

/-- `EXPECTED_LEN` (R5). -/
def expectedLen : Half := 28#16

/-- `CK_SPAN` (R6): how many leading bytes of a frame the checksum covers. -/
abbrev ckSpan : Nat := 30

/-- `NUM_FIELDS` (R7). -/
abbrev numFields : Nat := 12

/-- `P7` (R8), the line's baud rate. Informational: no rule of the block uses it. -/
abbrev lineBaud : Nat := 9600

/-- `P7` (R8), data bits, parity bits and stop bits of the line: 8N1. Informational. -/
abbrev lineFormat : Nat × Nat × Nat := (8, 0, 1)

/-- What a byte of the frame buffer reads as before anything is stored there. DESIGN CHOICE, log entry 1: R27 leaves the
reset contents unspecified and allows zeros. -/
def unwrittenByte : Byte := 0#8

end Sys2Proof.Config
end

