-- ==== Sys2Proof/Syntax.lean ====
section
/-! DEFINITION. The transactions of the block, one constructor per row of the opcode table (30_encoding.md R55), and the
three classes of a FEED byte (R52). -/

namespace Sys2Proof

/-- The block's "instructions": its three host transactions. -/
inductive Instr where
  /-- FEED byte (R56, R65): deliver one received byte. -/
  | feed (byte : Byte)
  /-- ENABLE s (R57, R95): `sink` is the operand `s`, true where a consumer is present. -/
  | enable (sink : Bool)
  /-- DISABLE (R57, R97). -/
  | disable
  deriving DecidableEq, Repr

/-- The class of a FEED byte (R52). -/
inductive ByteClass where
  | marker1
  | marker2
  | data
  deriving DecidableEq, Repr

end Sys2Proof
end

