-- ==== Sys2Proof/WellFormed.lean ====
section
/-! DEFINITION. Well-formed transactions and legal transaction words (30_encoding.md R55, R59). The operand types of `Instr`
already hold exactly the values the encoding admits, so what can be ill-formed is a WORD: one outside the match and mask
rows of R55. -/

namespace Sys2Proof

/-- The match value and the mask of each row of the opcode table (R55), in the table's order. -/
def tableRows : List (Cmd × Cmd) :=
  [(0x000, 0xF00), (0x100, 0xFFE), (0x200, 0xFFF)]

/-- A word is legal when it meets the match and mask of some row (R55, R59). -/
def Cmd.legal (cmd : Cmd) : Bool :=
  tableRows.any fun row => cmd &&& row.2 == row.1

/-- Every instruction is well formed: each operand value has an encoding (R56: the byte is "taken as is"; R57: `s` is 0 or
1; DISABLE has no operand). -/
def Instr.wf : Instr → Bool
  | .feed _ => true
  | .enable _ => true
  | .disable => true

end Sys2Proof
end

