-- ==== Sys2Proof/Decode.lean ====
section
/-! DEFINITION. The decoder of transaction words, total over all 4096 words (30_encoding.md R55, R59), and the encoder. -/

namespace Sys2Proof

/-- Why a word is illegal: the three cases of R59. -/
inductive Illegal where
  /-- `op` in 0011..1111. -/
  | reservedOp
  /-- An ENABLE word with any of `cmd[7:1]` set. -/
  | enableBits
  /-- A DISABLE word with any of `cmd[7:0]` set. -/
  | disableBits
  deriving DecidableEq, Repr

/-- What a word decodes to. -/
inductive Decoded where
  | instr (i : Instr)
  | illegal (why : Illegal)
  deriving DecidableEq, Repr

/-- `op = cmd[11:8]` (R55). -/
def Cmd.op (cmd : Cmd) : BitVec 4 := cmd.extractLsb' 8 4

/-- `data = cmd[7:0]` (R55). -/
def Cmd.data (cmd : Cmd) : Byte := cmd.extractLsb' 0 8

/-- Decode one transaction word (R55 to R57); every other word is illegal, by name (R59). -/
def decode (cmd : Cmd) : Decoded :=
  if Cmd.op cmd = 0 then .instr (.feed (Cmd.data cmd))
  else if Cmd.op cmd = 1 then
    if cmd.extractLsb' 1 7 = 0 then .instr (.enable (cmd.getLsbD 0)) else .illegal .enableBits
  else if Cmd.op cmd = 2 then
    if Cmd.data cmd = 0 then .instr .disable else .illegal .disableBits
  else .illegal .reservedOp

/-- The instruction a decoded word stands for, if it stands for one. -/
def Decoded.instr? : Decoded → Option Instr
  | .instr i => some i
  | .illegal _ => none

/-- The transaction word of an instruction (R55 to R57): `op` above `data`. -/
def encode : Instr → Cmd
  | .feed byte => (0 : BitVec 4) ++ byte
  | .enable sink => (1 : BitVec 4) ++ (0 : BitVec 7) ++ BitVec.ofBool sink
  | .disable => (2 : BitVec 4) ++ (0 : BitVec 8)

/-- The 12-bit word among the low `nbits` bits of `w`, where there is one: a number with a bit set above bit 11 is no
transaction word (R55: "Every transaction is exactly one word"). DESIGN CHOICE, log entry 12. -/
def tableWord (nbits w : Nat) : Option Cmd :=
  if w % 2 ^ nbits < 4096 then some (BitVec.ofNat 12 (w % 2 ^ nbits)) else none

/-- The instruction the decoder reads from a word numbered as the opcode table numbers it. -/
def decodeTableWord (nbits w : Nat) : Option Instr :=
  match tableWord nbits w with
  | some cmd => (decode cmd).instr?
  | none => none

end Sys2Proof
end

