-- ==== Sys2Proof/Machine/State.lean ====
section
/-! DEFINITION. The state of the block (10_state.md R10), its reset value (R23 to R28, 70 R125), its output events
(30_encoding.md R58), its inputs, and the fault and refusal types of a step. -/

namespace Sys2Proof.Machine

/-- The frame buffer: (address, byte) cells, addresses strictly rising, none at the byte an unlisted address reads as
(`Memory.wf` in Machine/Ops.lean). -/
abbrev Memory := List Host.Cell

/-- The measurement record (R7, R86): twelve unsigned 16-bit fields, in the order of R45. -/
structure Record where
  pm10Standard : Half
  pm25Standard : Half
  pm100Standard : Half
  pm10Env : Half
  pm25Env : Half
  pm100Env : Half
  particles03um : Half
  particles05um : Half
  particles10um : Half
  particles25um : Half
  particles50um : Half
  particles100um : Half
  deriving DecidableEq, Repr

/-- The three error classes (R105). -/
inductive DiagCode where
  /-- Framing desync (R107). -/
  | desync
  /-- Length mismatch (R108). -/
  | lenMismatch
  /-- Checksum mismatch (R109). -/
  | cksumMismatch
  deriving DecidableEq, Repr

/-- An output event (R58). -/
inductive Event where
  | record (r : Record)
  | diag (code : DiagCode)
  deriving DecidableEq, Repr

/-- The two reasons of the sticky fault mark (R117). -/
inductive FaultReason where
  /-- An illegal transaction word (R59). -/
  | illegalCommand (cmd : Cmd)
  /-- Overlapping transactions (R118, R119). -/
  | reentrantAccess
  deriving DecidableEq, Repr

/-- One input of the block, as the outside supplies it. DESIGN CHOICE, log entry 2. -/
inductive Input where
  /-- A transaction word that begins after the one before it is complete (R38, R40). -/
  | txn (cmd : Cmd)
  /-- A transaction word the consumer issues while it handles a record (R102, R118, D25). -/
  | react (cmd : Cmd)
  /-- A transaction word that begins while another transaction is in progress (R118, R119). -/
  | overlap (cmd : Cmd)
  /-- The reset input (R60, R125). -/
  | reset
  deriving DecidableEq, Repr

/-- The state. The first six fields are the tuple of R10; the last two are the model's own and stand for the block's output
and input ports (log entries 2 and 3). -/
structure State where
  /-- `buf[0..31]` (R12). -/
  buf : Memory
  /-- `off` (R11). -/
  off : Offset
  /-- `inpkt` (R13). -/
  inpkt : Bool
  /-- `enabled` (R15). -/
  enabled : Bool
  /-- `sink_present` (R16). -/
  sinkPresent : Bool
  /-- The sticky `fault` mark (R117). -/
  fault : Option FaultReason
  /-- The output event of the step that led to this state, if it emitted one (R58, R106). -/
  event : Option Event
  /-- The inputs not yet processed, in the order they arrive (R18, R40). -/
  inputs : List Input
  deriving DecidableEq, Repr

/-- The state right after reset (R23 to R28, R125): no event, no input waiting, the buffer unwritten. -/
def State.reset : State :=
  { buf := [], off := 0#6, inpkt := false, enabled := false, sinkPresent := false, fault := none,
    event := none, inputs := [] }

/-- Nobody raises a fault that stops the machine: "The block has no traps" (R111), and a raised model fault only sets the
mark in `State.fault` (R117, vector V-E8). So there is no constructor. Safe: nothing is left out by it. -/
inductive Fault where
  deriving DecidableEq, Repr

/-- Why a step is refused. -/
inductive Refusal where
  /-- Raised only by an arm of `exec` whose instruction has no meaning yet; no arm is such. Safe. -/
  | notModelled (mnemonic : String)
  deriving DecidableEq, Repr

end Sys2Proof.Machine
end

