-- ==== Sys2Proof/Machine/Ops.lean ====
section
/-! DEFINITION. The named operations over the frame buffer (20_memory.md) and over the state: the outputs, raising a model
fault (60_exceptions.md R117) and reset (70_reset_and_hazards.md R125). -/

namespace Sys2Proof.Machine

/-- What the buffer holds at a numbered cell; an unlisted one reads as `Config.unwrittenByte`. -/
def readCell : Memory → Nat → Byte
  | [], _ => Config.unwrittenByte
  | c :: m, a => if c.1 = a then c.2 else readCell m a

/-- The buffer without any entry for a cell. -/
def eraseCell (a : Nat) : Memory → Memory
  | [] => []
  | c :: m => if c.1 = a then eraseCell a m else c :: eraseCell a m

/-- Put an entry before the first one of a higher address. -/
def insertCell (a : Nat) (b : Byte) : Memory → Memory
  | [] => [(a, b)]
  | c :: m => if a < c.1 then (a, b) :: c :: m else c :: insertCell a b m

/-- `buf[a]`, i.e. `MemRead(a, 1)` (00_scope.md §4). Every 5-bit address exists (R30), so no read can fault (R36). -/
def Memory.read (m : Memory) (a : Addr) : Byte := readCell m a.toNat

/-- `buf[a] <- b`, i.e. `MemWrite(a, 1, b)`; writing the byte an unlisted cell reads as leaves no entry. -/
def Memory.write (m : Memory) (a : Addr) (b : Byte) : Memory :=
  if b = Config.unwrittenByte then eraseCell a.toNat m else insertCell a.toNat b (eraseCell a.toNat m)

/-- The canonical form of the buffer: addresses strictly rising and below 32, no entry at the unlisted byte. -/
abbrev Memory.wf (m : Memory) : Prop :=
  m.Pairwise (fun c d => c.1 < d.1) ∧ ∀ c ∈ m, c.1 < Config.frameLen ∧ c.2 ≠ Config.unwrittenByte

/-- No event on the outputs: an event "exists only in the step that emits it" (R58), so each transaction starts here. -/
def quiet (s : State) : State := { s with event := none }

/-- `emit e` (00_scope.md §4): put one event on the outputs in the current step. -/
def emit (e : Event) (s : State) : State := { s with event := some e }

/-- `raise F(info)` (R117): set the mark if it is clear; the faulting transaction has no other effect. -/
def raise (r : FaultReason) (s : State) : State :=
  { quiet s with fault := some (s.fault.getD r) }

/-- `MemWrite(a, 1, b)` on the state. -/
def memWrite (a : Addr) (b : Byte) (s : State) : State := { s with buf := s.buf.write a b }

/-- Reset (R125): every element at its reset value, no event. What the outside still has to supply stays (log entry 10). -/
def resetBlock (s : State) : State := { State.reset with inputs := s.inputs }

/-- The output level `active = enabled` for the platform's power line (42_lifecycle.md R101). -/
def active (s : State) : Bool := s.enabled

end Sys2Proof.Machine
end

