-- ==== Sys2Proof/Machine/Operands.lean ====
section
/-! DEFINITION. The operand forms: big-endian values (20_memory.md R34), the byte class of FEED (30_encoding.md R52), the
fields of a candidate frame (R45 to R51), the record and its output words (R58, 41_validate_decode.md R86). -/

namespace Sys2Proof.Machine

/-- `be16(hi, lo) = hi * 256 + lo` (00_scope.md §4, R34). -/
def be16 (hi lo : Byte) : Half := hi ++ lo

/-- The class of a FEED byte (R52). -/
def byteClass (b : Byte) : ByteClass :=
  if b = Config.marker1 then .marker1 else if b = Config.marker2 then .marker2 else .data

/-- `MemRead(a, 2)` (00_scope.md §4): the byte at the lower offset is the most significant (R34). -/
def read16 (m : Memory) (a : Addr) : Half := be16 (m.read a) (m.read (a + 1#5))

/-- The declared payload length, bytes 2 and 3 (R47). -/
def lengthField (m : Memory) : Half := read16 m 2#5

/-- The checksum field, bytes 30 and 31 (R50). -/
def checksumField (m : Memory) : Half := read16 m 30#5

/-- The exact integer sum of the first `n` bytes of the buffer (R35: single bytes, not 16-bit values). -/
def byteSum (m : Memory) : Nat → Nat
  | 0 => 0
  | n + 1 => byteSum m n + (m.read (BitVec.ofNat 5 n)).toNat

/-- The computed checksum (R82): the sum of bytes 0 to 29, mod 2^16. -/
def checksum (m : Memory) : Half := BitVec.ofNat 16 (byteSum m Config.ckSpan)

/-- `Decode(buf)` (R86): field `k` is `MemRead(4 + 2k, 2)`; bytes 28 and 29 are not read (R87). -/
def decodeRecord (m : Memory) : Record :=
  { pm10Standard := read16 m 4#5, pm25Standard := read16 m 6#5, pm100Standard := read16 m 8#5,
    pm10Env := read16 m 10#5, pm25Env := read16 m 12#5, pm100Env := read16 m 14#5,
    particles03um := read16 m 16#5, particles05um := read16 m 18#5, particles10um := read16 m 20#5,
    particles25um := read16 m 22#5, particles50um := read16 m 24#5, particles100um := read16 m 26#5 }

/-- The twelve fields in the order of R45. -/
def Record.toList (r : Record) : List Half :=
  [r.pm10Standard, r.pm25Standard, r.pm100Standard, r.pm10Env, r.pm25Env, r.pm100Env,
   r.particles03um, r.particles05um, r.particles10um, r.particles25um, r.particles50um, r.particles100um]

/-- A record from twelve values in the order of R45. -/
def recordOfList : List Half → Option Record
  | [a, b, c, d, e, f, g, h, i, j, k, l] => some ⟨a, b, c, d, e, f, g, h, i, j, k, l⟩
  | _ => none

/-- The record event as one 192-bit word, `pm10_standard` on top (R58): each field is put below those before it. -/
def Record.toBits (r : Record) : BitVec 192 :=
  BitVec.ofNat 192 (r.toList.foldl (fun above v => above * 65536 + v.toNat) 0)

/-- The 2-bit code of a diagnostic event (R58); 00 is never emitted. -/
def DiagCode.toBits : DiagCode → BitVec 2
  | .desync => 0b01
  | .lenMismatch => 0b10
  | .cksumMismatch => 0b11

/-- Where step 3 of FEED stores (R69): `off`, when `inpkt = 1` and `off < 32`; nowhere otherwise. -/
def storeSlot (s : State) : Option Addr :=
  if s.inpkt = true ∧ s.off < 32#6 then some (s.off.setWidth 5) else none

end Sys2Proof.Machine
end

