-- ==== Sys2Proof/Machine/Flags.lean ====
section
/-! DEFINITION. The flags of the block (`inpkt`, `enabled`, `sink_present`; 10_state.md R13 to R16, R19), the operations that
write them, and the three checks, each of which "lives only within its step" (R19). -/

namespace Sys2Proof.Machine

/-- Begin a capture (40_assembler.md R67): `off <- 0`, `inpkt <- 1`, together (10_state.md R14). -/
def beginCapture (s : State) : State := { s with off := 0#6, inpkt := true }

/-- Abandon the capture (R68): `inpkt <- 0`; `off` stays. -/
def abandonCapture (s : State) : State := { s with inpkt := false }

/-- Open the receive path (42_lifecycle.md R95): `enabled <- 1`, `sink_present <- s`. -/
def openPath (sink : Bool) (s : State) : State := { s with enabled := true, sinkPresent := sink }

/-- Close the receive path (R97): `enabled <- 0`, `sink_present <- 0`. -/
def closePath (s : State) : State := { s with enabled := false, sinkPresent := false }

/-- The second-byte check fails (R68): `off = 1` and the byte is not 0x4D. It does not test `inpkt`. -/
abbrev secondByteFails (b : Byte) (s : State) : Prop := s.off = 1#6 ∧ b ≠ Config.marker2

/-- The length check (41_validate_decode.md R81). -/
def lengthOk (m : Memory) : Bool := lengthField m == Config.expectedLen

/-- The checksum check (R82, R83). -/
def checksumOk (m : Memory) : Bool := checksum m == checksumField m

end Sys2Proof.Machine
end

