-- ==== Sys2Proof/Machine/Validate.lean ====
section
/-! DEFINITION. `Complete()`, the validation of a candidate frame and the delivery of its record
(41_validate_decode.md R80 to R94). -/

namespace Sys2Proof.Machine

/-- `Complete()` (R80): length check (R81), then checksum check (R82 to R84), then decode and delivery (R86, R88). It writes
no state but the output (R89). -/
def complete (s : State) : State :=
  if lengthOk s.buf = false then emit (.diag .lenMismatch) s
  else if checksumOk s.buf = false then emit (.diag .cksumMismatch) s
  else if s.sinkPresent = true then emit (.record (decodeRecord s.buf)) s
  else s

end Sys2Proof.Machine
end

