-- ==== Sys2Proof/Machine/Feed.lean ====
section
/-! DEFINITION. FEED, the frame assembler (40_assembler.md R65 to R79), one definition per step of its pseudocode. -/

namespace Sys2Proof.Machine

/-- Step 1, synchronisation (R67). -/
def synchronise (b : Byte) (s : State) : State :=
  if b = Config.marker1 then beginCapture s else s

/-- Step 2, the second-byte check (R68). -/
def secondByteCheck (b : Byte) (s : State) : State :=
  if secondByteFails b s then emit (.diag .desync) (abandonCapture s) else s

/-- Steps 1 and 2, in that order (R71), on a state with no event: the state step 3 sees. -/
def beforeStore (b : Byte) (s : State) : State := secondByteCheck b (synchronise b (quiet s))

/-- Step 3's store (R69): `MemWrite(off, 1, byte)`, `off <- off + 1`. -/
def storeByte (a : Addr) (b : Byte) (s : State) : State :=
  { memWrite a b s with off := s.off + 1#6 }

/-- Step 4, the completion trigger, run only after a store (R70): "exactly when step 3 of this FEED stored a byte and `off`
is now 32". -/
def completionTrigger (s : State) : State :=
  if s.off = 32#6 then complete s else s

/-- Where FEED stores its byte, if it does. -/
def feedSlot (b : Byte) (s : State) : Option Addr :=
  if s.enabled = true then storeSlot (beforeStore b s) else none

/-- FEED (R65): no effect while disabled (R66); else steps 1 to 4. -/
def execFeed (b : Byte) (s : State) : Host.Outcome State Fault Refusal :=
  if s.enabled = true then
    match storeSlot (beforeStore b s) with
    | some a => .next (completionTrigger (storeByte a b (beforeStore b s)))
    | none => .next (beforeStore b s)
  else .next (quiet s)

end Sys2Proof.Machine
end

