-- ==== Sys2Proof/Machine/Lifecycle.lean ====
section
/-! DEFINITION. ENABLE and DISABLE (42_lifecycle.md R95 to R104). Neither writes `off`, `inpkt` or `buf` (R99), emits an event
or touches the fault mark (R103). -/

namespace Sys2Proof.Machine

/-- ENABLE s (R95), the same while already enabled (R96). -/
def execEnable (sink : Bool) (s : State) : Host.Outcome State Fault Refusal :=
  .next (openPath sink (quiet s))

/-- DISABLE (R97), the same while already disabled (R98). -/
def execDisable (s : State) : Host.Outcome State Fault Refusal :=
  .next (closePath (quiet s))

end Sys2Proof.Machine
end

