-- ==== Sys2Proof/Machine/Dispatch.lean ====
section
/-! DEFINITION. One arm per transaction of the opcode table. -/

namespace Sys2Proof.Machine

def exec (i : Instr) (s : State) : Host.Outcome State Fault Refusal :=
  match i with
  | .feed byte => Sys2Proof.Machine.execFeed byte s
  | .enable sink => Sys2Proof.Machine.execEnable sink s
  | .disable => Sys2Proof.Machine.execDisable s

end Sys2Proof.Machine
end

