-- ==== Sys2Proof/Machine/Port.lean ====
section
/-! DEFINITION. The input port: what a step does with the next input (20_memory.md R38, R40; 42_lifecycle.md R102;
60_exceptions.md R117 to R119; 70_reset_and_hazards.md R125). The block fetches no instructions (10_state.md R18): the outside
supplies the transactions, and the state holds those not yet processed. -/

namespace Sys2Proof.Machine

/-- What a step is to do. -/
inductive Action where
  /-- No input waits. -/
  | idle
  /-- The reset input. -/
  | reset
  /-- A model fault is raised. -/
  | raise (r : FaultReason)
  /-- One legal transaction is executed. -/
  | execute (i : Instr)
  deriving DecidableEq, Repr

/-- A transaction word: its instruction, or `IllegalCommand(cmd)` (R59). -/
def wordAction (cmd : Cmd) : Action :=
  match decode cmd with
  | .instr i => .execute i
  | .illegal _ => .raise (.illegalCommand cmd)

/-- A transaction of the consumer's (R102, R118, D25): a FEED is `ReentrantAccess`; any other word is the next step. DEDUCED,
log entry 7. -/
def reactionAction (cmd : Cmd) : Action :=
  match decode cmd with
  | .instr (.feed _) => .raise .reentrantAccess
  | .instr i => .execute i
  | .illegal _ => .raise (.illegalCommand cmd)

/-- What one input asks for. An overlapping transaction raises `ReentrantAccess` whatever its word is (R118, R119; log
entries 5 and 6). -/
def inputAction : Input → Action
  | .txn cmd => wordAction cmd
  | .react cmd => reactionAction cmd
  | .overlap _ => .raise .reentrantAccess
  | .reset => .reset

/-- What the next step is to do: the oldest input is next (R40). With none waiting the block idles (log entry 4). -/
def nextAction (s : State) : Action :=
  match s.inputs with
  | [] => .idle
  | inp :: _ => inputAction inp

/-- Take the oldest input off the port; the event of the step before is gone (R58). -/
def takeInput (s : State) : State := { quiet s with inputs := s.inputs.tail }

/-- The outside presents a transaction word as the very next input (log entry 2). -/
def present (cmd : Cmd) (s : State) : State := { s with inputs := .txn cmd :: s.inputs }

end Sys2Proof.Machine
end

