-- ==== Sys2Proof/Machine/Step.lean ====
section
/-! DEFINITION. One step: the complete processing of one input (00_scope.md §4, "step"; 20_memory.md R38). -/

namespace Sys2Proof.Machine

/-- One step. Every input leads to a next state: the block has no traps (60_exceptions.md R111), and an illegal or overlapping
transaction only sets the fault mark (R117). -/
def step (s : State) : Host.Outcome State Fault Refusal :=
  match nextAction s with
  | .execute i => exec i (takeInput s)
  | .raise r => .next (raise r (takeInput s))
  | .reset => .next (resetBlock (takeInput s))
  | .idle => .next (takeInput s)

/-- The state with the transaction word among the low `nbits` bits of `w` presented as the next input. A number with a bit set
above bit 11 is no transaction word and presents nothing (log entry 12). -/
def State.withFetchWord (s : State) (nbits w : Nat) : State :=
  match tableWord nbits w with
  | some cmd => present cmd s
  | none => s

end Sys2Proof.Machine
end

