-- ==== Sys2Proof/Machine/Asm.lean ====
section
/-! DEFINITION. The assembly syntax and the pseudo-instructions (30_encoding.md R61 to R64): a program text becomes the list of
inputs the host supplies. What R61 leaves open of the text's form is log entry 13. -/

namespace Sys2Proof.Machine

/-- The two bytes of a 16-bit value on the wire, most significant first (R34). -/
def beBytes (v : Half) : List Byte := [v.extractLsb' 8 8, v.extractLsb' 0 8]

/-- The arguments of `FRAME` (R63): the twelve values, and `res`, `len` and `ck` with their defaults. -/
structure FrameArgs where
  values : Record
  res : Half := 0
  len : Half := 28
  ck : Option Half := none
  deriving DecidableEq, Repr

/-- The first 30 bytes of the frame (R63): markers, length, values, reserved pair. -/
def frameBody (f : FrameArgs) : List Byte :=
  [Config.marker1, Config.marker2] ++ beBytes f.len ++ f.values.toList.flatMap beBytes ++ beBytes f.res

/-- The exact sum of a list of bytes. -/
def listSum (bs : List Byte) : Nat := (bs.map BitVec.toNat).sum

/-- The 32 bytes of the frame (R63), each written literally (R64); `C` defaults to the sum of the 30 bytes before it,
mod 2^16. -/
def frameBytes (f : FrameArgs) : List Byte :=
  frameBody f ++ beBytes (f.ck.getD (BitVec.ofNat 16 (listSum (frameBody f))))

/-- One line of the assembly syntax: a transaction or RESET (R61), or a pseudo-instruction (R62, R63). -/
inductive AsmLine where
  | instr (i : Instr)
  | reset
  | feeds (bs : List Byte)
  | frame (f : FrameArgs)
  deriving DecidableEq, Repr

/-- `FEEDS b0 b1 ... bn` (R62): one FEED a byte, in that order. -/
def feedInputs (bs : List Byte) : List Input := bs.map fun b => .txn (encode (.feed b))

/-- The inputs a line stands for. -/
def AsmLine.expand : AsmLine → List Input
  | .instr i => [.txn (encode i)]
  | .reset => [.reset]
  | .feeds bs => feedInputs bs
  | .frame f => feedInputs (frameBytes f)

/-- A word of the text between blanks. -/
abbrev Token := List Char

/-- Cut a text at every character for which `stop` holds; the pieces may be empty. -/
def cutAt (stop : Char → Bool) : List Char → List Token
  | [] => [[]]
  | c :: cs =>
    if stop c then [] :: cutAt stop cs
    else
      match cutAt stop cs with
      | [] => [[c]]
      | t :: ts => (c :: t) :: ts

/-- A line without its comment: "A `;` starts a comment that runs to the end of the line" (R61). -/
def withoutComment : List Char → List Char
  | [] => []
  | c :: cs => if c = ';' then [] else c :: withoutComment cs

/-- The non-empty words of a line, cut at blanks and tabs. -/
def tokens (line : List Char) : List Token :=
  (cutAt (fun c => c == ' ' || c == '\t') (withoutComment line)).filter fun t => !t.isEmpty

/-- The value of a digit in a base of at most 16. -/
def digit (base : Nat) (c : Char) : Option Nat :=
  let n := c.toNat
  let v := if 48 ≤ n ∧ n ≤ 57 then n - 48
    else if 65 ≤ n ∧ n ≤ 70 then n - 55
    else if 97 ≤ n ∧ n ≤ 102 then n - 87
    else 16
  if v < base then some v else none

/-- The number some digits stand for, after the value read so far. -/
def digits (base : Nat) : Nat → List Char → Option Nat
  | acc, [] => some acc
  | acc, c :: cs =>
    match digit base c with
    | some v => digits base (acc * base + v) cs
    | none => none

/-- A number: "hexadecimal with `0x`, or decimal" (R61). -/
def number : Token → Option Nat
  | '0' :: 'x' :: c :: cs => digits 16 0 (c :: cs)
  | c :: cs => digits 10 0 (c :: cs)
  | [] => none

/-- A number of at most `w` bits. -/
def value (w : Nat) (t : Token) : Option (BitVec w) :=
  match number t with
  | some n => if n < 2 ^ w then some (BitVec.ofNat w n) else none
  | none => none

/-- Every token as a value of at most `w` bits. -/
def values (w : Nat) : List Token → Option (List (BitVec w))
  | [] => some []
  | t :: ts =>
    match value w t, values w ts with
    | some v, some vs => some (v :: vs)
    | _, _ => none

/-- The options of `FRAME`, each at most once, in the order R63 writes them. -/
def frameOptions (f : FrameArgs) : List Token → Option FrameArgs
  | [] => some f
  | ('r' :: 'e' :: 's' :: '=' :: t) :: ts =>
    match value 16 t with
    | some v =>
      match ts with
      | [] => some { f with res := v }
      | ('l' :: 'e' :: 'n' :: '=' :: u) :: us => frameLen { f with res := v } u us
      | [('c' :: 'k' :: '=' :: u)] => frameCk { f with res := v } u
      | _ => none
    | none => none
  | ('l' :: 'e' :: 'n' :: '=' :: t) :: ts => frameLen f t ts
  | [('c' :: 'k' :: '=' :: t)] => frameCk f t
  | _ => none
where
  /-- `ck=C`, the last option. -/
  frameCk (f : FrameArgs) (t : Token) : Option FrameArgs :=
    (value 16 t).map fun v => { f with ck := some v }
  /-- `len=L`, then possibly `ck=C`. -/
  frameLen (f : FrameArgs) (t : Token) (ts : List Token) : Option FrameArgs :=
    match value 16 t, ts with
    | some v, [] => some { f with len := v }
    | some v, [('c' :: 'k' :: '=' :: u)] => frameCk { f with len := v } u
    | _, _ => none

/-- One line; `none` where it is not in the syntax, an empty list where it is blank or a comment. -/
def parseLine (line : List Char) : Option (List AsmLine) :=
  match tokens line with
  | [] => some []
  | [['F', 'E', 'E', 'D'], t] => (value 8 t).map fun b => [.instr (.feed b)]
  | [['E', 'N', 'A', 'B', 'L', 'E'], ['s', 'i', 'n', 'k']] => some [.instr (.enable true)]
  | [['E', 'N', 'A', 'B', 'L', 'E'], ['n', 'o', 's', 'i', 'n', 'k']] => some [.instr (.enable false)]
  | [['D', 'I', 'S', 'A', 'B', 'L', 'E']] => some [.instr .disable]
  | [['R', 'E', 'S', 'E', 'T']] => some [.reset]
  | ['F', 'E', 'E', 'D', 'S'] :: t :: ts => (values 8 (t :: ts)).map fun bs => [.feeds bs]
  | ['F', 'R', 'A', 'M', 'E'] :: ts =>
    match (values 16 (ts.take Config.numFields)).bind recordOfList with
    | some r => (frameOptions { values := r } (ts.drop Config.numFields)).map fun f => [.frame f]
    | none => none
  | _ => none

/-- A text of lines. -/
def parseLines : List (List Char) → Option (List AsmLine)
  | [] => some []
  | l :: ls =>
    match parseLine l, parseLines ls with
    | some a, some b => some (a ++ b)
    | _, _ => none

/-- The inputs a program text stands for, one transaction or pseudo-instruction a line (R61 to R63). -/
def assemble (src : List Char) : Option (List Input) :=
  (parseLines (cutAt (fun c => c == '\n') src)).map fun ls => ls.flatMap AsmLine.expand

end Sys2Proof.Machine
end

