-- ==== Sys2Proof/Safety.lean ====
section
/-! DEFINITION. The terms claims are stated in: the reachable states and the buffer's contents (10_state.md R20, R21), stale
bytes (R22), runs and their observation (70_reset_and_hazards.md R139), the condition of each error class (60_exceptions.md
R105), and the OPEN parameter `DIAG_SINK` (92_eei_decisions.md D10). -/

namespace Sys2Proof.Machine

/-- `(off, inpkt)` is in the set of R20: (0, 0), (1, 0) or (k, 1) with 1 ≤ k ≤ 32. -/
abbrev State.assemblyInv (s : State) : Prop :=
  (s.inpkt = false ∧ (s.off = 0#6 ∨ s.off = 1#6)) ∨ (s.inpkt = true ∧ 1#6 ≤ s.off ∧ s.off ≤ 32#6)

/-- What the captured bytes are (R21): 0x42 at 0, 0x4D at 1, and no 0x42 from 1 up to `off`. -/
abbrev State.captureInv (s : State) : Prop :=
  (1#6 ≤ s.off → s.buf.read 0#5 = Config.marker1) ∧
  (2#6 ≤ s.off → s.buf.read 1#5 = Config.marker2) ∧
  ∀ a : Addr, 1 ≤ a.toNat → a.toNat < s.off.toNat → s.buf.read a ≠ Config.marker1

/-- The parked state (00_scope.md §5, 40_assembler.md R75). -/
abbrev State.parked (s : State) : Prop := s.off = 1#6 ∧ s.inpkt = false

/-- Two states alike but for stale buffer bytes, those at `off` and above (R22). -/
def State.sameButStale (s t : State) : Prop :=
  t = { s with buf := t.buf } ∧ ∀ a : Addr, a.toNat < s.off.toNat → s.buf.read a = t.buf.read a

/-- Up to `k` steps: the events they emit, each tagged with the index of its step counted from `n`, and the state after them
(R139). -/
def runFrom (n : Nat) : Nat → State → List (Nat × Event) × State
  | 0, s => ([], s)
  | k + 1, s =>
    match step s with
    | .next t =>
      let rest := runFrom (n + 1) k t
      (t.event.toList.map (fun e => (n, e)) ++ rest.1, rest.2)
    | .fault _ => ([], s)
    | .refused _ => ([], s)

/-- The observation of the inputs `ins` supplied to a state: the events with their step indexes, and the final state (R139). -/
def observe (ins : List Input) (s : State) : List (Nat × Event) × State :=
  runFrom 0 ins.length { s with inputs := ins }

/-- A run: "a reset followed by a finite sequence of transactions" (R139); inputs before any reset are no run (I15). -/
def isRun : List Input → Bool
  | .reset :: ins => ins.all fun i => i != .reset
  | _ => false

/-- The observation of a run (R139). The step index counts transactions from 0, after the reset (95_test_vectors.md §3). What
does not begin with a reset is no run and has none (I15: "refuse"). -/
def observeRun (ins : List Input) : Option (List (Nat × Event) × State) :=
  if isRun ins then some (observe ins.tail State.reset) else none

/-- The input is a FEED word that begins in its turn (30_encoding.md R56). -/
def isFeedWord : Input → Bool
  | .txn cmd => Cmd.op cmd == 0
  | _ => false

/-- The input is an ENABLE that is processed, in its turn or as the consumer's (42_lifecycle.md R95, R102). -/
def opensPath : Input → Bool
  | .txn cmd | .react cmd =>
    match decode cmd with
    | .instr (.enable _) => true
    | _ => false
  | _ => false

/-- A run whose fault mark is set "is faulted, and no claim is made of it" (R139). -/
def State.faulted (s : State) : Bool := s.fault.isSome

/-- The codes of the diagnostic events among some events, in order. -/
def diagCodes : List (Nat × Event) → List DiagCode
  | [] => []
  | (_, .diag c) :: es => c :: diagCodes es
  | (_, .record _) :: es => diagCodes es

/-- When FEED of a byte reports an error class, by the state before it (60_exceptions.md R105). The two candidate checks look at
the buffer with the byte stored at 31. -/
def DiagCode.condition : DiagCode → Byte → State → Prop
  | .desync, b, s => s.enabled = true ∧ s.off = 1#6 ∧ b ≠ 0x42#8 ∧ b ≠ 0x4D#8
  | .lenMismatch, b, s =>
    s.enabled = true ∧ s.inpkt = true ∧ s.off = 31#6 ∧ b ≠ 0x42#8 ∧
      let m := s.buf.write 31#5 b
      be16 (m.read 2#5) (m.read 3#5) ≠ 28#16
  | .cksumMismatch, b, s =>
    s.enabled = true ∧ s.inpkt = true ∧ s.off = 31#6 ∧ b ≠ 0x42#8 ∧
      let m := s.buf.write 31#5 b
      be16 (m.read 2#5) (m.read 3#5) = 28#16 ∧
        BitVec.ofNat 16 ((List.range 30).map fun i => (m.read (BitVec.ofNat 5 i)).toNat).sum ≠
          be16 (m.read 30#5) (m.read 31#5)

/-- The OPEN parameter `DIAG_SINK` (D10, R112): a relation from the emitted codes to the logged ones. It may delay any event
and may drop events; it "preserves the relative order of the events it logs". -/
structure DiagSink where
  logs : List DiagCode → List DiagCode → Prop
  keepsOrder : ∀ emitted logged, logs emitted logged → logged.Sublist emitted

end Sys2Proof.Machine
end

