-- ==== Sys2Proof/Certificates/Slice0/Obligations.lean ====
section
/-! DEFINITION. The statements for the provers, each from a rule of spec/ that its docstring names. A rule the spec marks
"[derived: ...]" is cited by its section only. -/

open Sys2Proof Sys2Proof.Machine

/-! ## Reset and the step -/

/-- 10_state.md R23 to R26 and R28: the values reset leaves. (The buffer's contents are unspecified, R27, and not stated.) -/
def Obligations.ResetLeavesTheResetValues : Prop :=
  State.reset.off = 0#6 ∧ State.reset.inpkt = false ∧ State.reset.enabled = false ∧
    State.reset.sinkPresent = false ∧ State.reset.fault = none

/-- 70_reset_and_hazards.md R125: the reset input puts every state element at its reset value, the buffer at some value, and
emits no event. That it is a step of its own, so never inside a FEED, and that the inputs still waiting stay, are the model's
choice, log entry 10. -/
def Obligations.ResetInputResetsEveryElement : Prop :=
  ∀ s rest, s.inputs = .reset :: rest →
    ∃ m : Memory, step s = .next
      { buf := m, off := 0#6, inpkt := false, enabled := false, sinkPresent := false, fault := none,
        event := none, inputs := rest }

/-- With no input waiting a step changes nothing but that the output event is gone. The model's choice, log entry 4. -/
def Obligations.IdleStepOnlyDropsTheEvent : Prop :=
  ∀ s : State, s.inputs = [] → step s = .next { s with event := none }

/-- 10_state.md R18 and 20_memory.md R38, R40 with the port of log entry 2: where the oldest input is a word that decodes to
`i`, the step is `exec i` on the state with that input taken and the event of the step before gone. -/
def Obligations.StepRunsTheDecodedInstruction : Prop :=
  ∀ s cmd rest i, s.inputs = .txn cmd :: rest → decode cmd = .instr i →
    step s = exec i { s with event := none, inputs := rest }

/-- A legal word presented to any state is what its very next step runs, and what was waiting still waits. The model's port,
log entries 2 and 12. -/
def Obligations.PresentedWordRunsNext : Prop :=
  ∀ (s : State) (cmd : Cmd) (i : Instr) (nbits : Nat), 12 ≤ nbits → decode cmd = .instr i →
    step (s.withFetchWord nbits cmd.toNat) = exec i { s with event := none } ∧
      decodeTableWord nbits cmd.toNat = some i

/-- 60_exceptions.md R111, "The block has no traps": every step from every state answers a next state. That a step takes exactly
one waiting input, that it answers with none waiting, and that a raised fault is a next state too are the model's, log entries
2, 4 and 9. -/
def Obligations.EveryStepAnswersNext : Prop :=
  ∀ s : State, ∃ t, step s = .next t ∧ t.inputs = s.inputs.tail

/-! ## Encodings -/

/-- 30_encoding.md R55 to R57: decoding the word of an instruction gives the instruction back, at every operand value. -/
def Obligations.DecodeOfEncode : Prop :=
  ∀ i : Instr, i.wf = true → decode (encode i) = .instr i

/-- 30_encoding.md R55: each legal word has one meaning, so encoding what a word decodes to gives the word back. -/
def Obligations.EncodeOfDecode : Prop :=
  ∀ cmd i, decode cmd = .instr i → encode i = cmd

/-- 30_encoding.md R56 and R57: which words are FEED, ENABLE and DISABLE, and where their operands stand. -/
def Obligations.DecoderReadsTheFields : Prop :=
  ∀ cmd : Cmd,
    (∀ b : Byte, decode cmd = .instr (.feed b) ↔ cmd.extractLsb' 8 4 = 0 ∧ b = cmd.extractLsb' 0 8) ∧
    (∀ p : Bool, decode cmd = .instr (.enable p) ↔
      cmd.extractLsb' 8 4 = 1 ∧ cmd.extractLsb' 1 7 = 0 ∧ p = cmd.getLsbD 0) ∧
    (decode cmd = .instr .disable ↔ cmd = 0x200)

/-- 30_encoding.md R59: which words are illegal, that they are exactly those outside the three match and mask rows and 3837 of
the 4096, and that each raises `IllegalCommand(cmd)` (the mark set if it is clear, R117) and changes no other state. -/
def Obligations.IllegalWordsRaiseIllegalCommand : Prop :=
  (∀ cmd : Cmd, (decode cmd).instr? = none ↔
    3 ≤ cmd.extractLsb' 8 4 ∨ (cmd.extractLsb' 8 4 = 1 ∧ cmd.extractLsb' 1 7 ≠ 0) ∨
      (cmd.extractLsb' 8 4 = 2 ∧ cmd.extractLsb' 0 8 ≠ 0)) ∧
  (∀ cmd : Cmd, (decode cmd).instr? = none ↔ Cmd.legal cmd = false) ∧
  (List.range 4096).countP (fun n => (decode (BitVec.ofNat 12 n)).instr?.isNone) = 3837 ∧
  ∀ s cmd rest, s.inputs = .txn cmd :: rest → (decode cmd).instr? = none →
    step s = .next
      { s with event := none, inputs := rest, fault := some (s.fault.getD (.illegalCommand cmd)) }

/-- 95_test_vectors.md V-E1 to V-E7: the words the spec writes out. -/
def Obligations.WrittenOutWordsDecode : Prop :=
  decode 0x042 = .instr (.feed 0x42#8) ∧ decode 0x0FF = .instr (.feed 0xFF) ∧
  decode 0x101 = .instr (.enable true) ∧ decode 0x100 = .instr (.enable false) ∧
  decode 0x200 = .instr .disable ∧ decode 0x102 = .illegal .enableBits ∧
  decode 0x201 = .illegal .disableBits ∧ decode 0x300 = .illegal .reservedOp ∧
  decode 0xFFF = .illegal .reservedOp

/-- 30_encoding.md R58: field `k` of the 192-bit record word is bits `191 - 16k` down to `176 - 16k`; the diagnostic codes, 00
among them never; and an event "is not held afterwards": no step depends on the event of the step before. -/
def Obligations.OutputEventsAsEncodedAndNotHeld : Prop :=
  (∀ (r : Record) (k : Nat) (v : Half), r.toList[k]? = some v →
    r.toBits.extractLsb' (176 - 16 * k) 16 = v) ∧
  (∀ r : Record, r.toList.length = 12) ∧
  (∀ m : Memory, (decodeRecord m).toList.head? = some (read16 m 4#5) ∧
    (decodeRecord m).toList.getLast? = some (read16 m 26#5)) ∧
  DiagCode.desync.toBits = 0b01 ∧ DiagCode.lenMismatch.toBits = 0b10 ∧
  DiagCode.cksumMismatch.toBits = 0b11 ∧ (∀ c : DiagCode, c.toBits ≠ 0b00) ∧
  ∀ (s : State) (e : Option Event), step { s with event := e } = step s

/-! ## Model faults and the consumer's transactions -/

/-- 60_exceptions.md R118, R119: any transaction that overlaps another, and a FEED the consumer issues while it handles a
record, raises `ReentrantAccess` and has no other effect. That the transaction that begins is the faulting one, and that an
overlapping illegal word raises this too, are the model's, log entries 5, 6 and 7. -/
def Obligations.OverlapRaisesReentrantAccess : Prop :=
  ∀ s cmd rest,
    (s.inputs = .overlap cmd :: rest ∨ (s.inputs = .react cmd :: rest ∧ ∃ b, decode cmd = .instr (.feed b))) →
    step s = .next
      { s with event := none, inputs := rest, fault := some (s.fault.getD .reentrantAccess) }

/-- 42_lifecycle.md R102 with D25: an ENABLE or DISABLE the consumer issues on a record is processed as the next step. Its
illegal word raises `IllegalCommand(cmd)` and changes no other state. The tag on the input, and with it what an illegal word so
tagged does, are the model's, log entry 7. (The consumer's FEED: `OverlapRaisesReentrantAccess`.) -/
def Obligations.ConsumerReactionIsTheNextStep : Prop :=
  (∀ s cmd rest i, s.inputs = .react cmd :: rest → decode cmd = .instr i → (∀ b, i ≠ .feed b) →
    step s = exec i { s with event := none, inputs := rest }) ∧
  ∀ s cmd rest, s.inputs = .react cmd :: rest → (decode cmd).instr? = none →
    step s = .next
      { s with event := none, inputs := rest, fault := some (s.fault.getD (.illegalCommand cmd)) }

/-- 60_exceptions.md R117: a set mark stays until reset; a clear one is set only by an illegal word, with
`IllegalCommand(cmd)`, or by an overlap, with `ReentrantAccess`, and then nothing else changes. Which transaction of an overlap
faults, and what the consumer's own words do, are the model's, log entries 5 and 7. -/
def Obligations.FaultMarkIsSticky : Prop :=
  ∀ s t, step s = .next t →
    (∀ r, s.fault = some r → s.inputs.head? ≠ some .reset → t.fault = some r) ∧
    (s.inputs.head? = some .reset → t.fault = none) ∧
    (∀ r, s.fault = none → t.fault = some r →
      t = { s with event := none, inputs := s.inputs.tail, fault := some r } ∧
      ((∃ cmd, r = .illegalCommand cmd ∧ (decode cmd).instr? = none ∧
          (s.inputs.head? = some (.txn cmd) ∨ s.inputs.head? = some (.react cmd))) ∨
       (r = .reentrantAccess ∧
          ((∃ cmd, s.inputs.head? = some (.overlap cmd)) ∨
           ∃ cmd b, s.inputs.head? = some (.react cmd) ∧ decode cmd = .instr (.feed b)))))

/-! ## FEED -/

/-- 40_assembler.md R66: while `enabled = 0`, FEED has no effect: no state changes and no event. -/
def Obligations.FeedWhileDisabledHasNoEffect : Prop :=
  ∀ (b : Byte) (s : State), s.enabled = false → exec (.feed b) s = .next { s with event := none }

/-- 40_assembler.md R67 with R69: while enabled, a 0x42 begins a new capture whatever the rest of the state, the byte is stored
at 0, and the other buffer contents are not cleared. -/
def Obligations.FeedMarkerBeginsACapture : Prop :=
  ∀ s : State, s.enabled = true →
    exec (.feed 0x42#8) s = .next
      { s with buf := s.buf.write 0#5 0x42#8, off := 1#6, inpkt := true, event := none }

/-- 40_assembler.md R68: with `off = 1`, a byte other than 0x42 and 0x4D clears `inpkt` and emits DESYNC; `off` stays 1. The
condition does not test `inpkt`. It cannot fire for 0x42. -/
def Obligations.FeedFailedSecondByte : Prop :=
  (∀ (b : Byte) (s : State), s.enabled = true → s.off = 1#6 → b ≠ 0x42#8 → b ≠ 0x4D#8 →
    exec (.feed b) s = .next { s with inpkt := false, event := some (.diag .desync) }) ∧
  ∀ s : State, ∃ t, exec (.feed 0x42#8) s = .next t ∧ t.event = none

/-- 40_assembler.md R69: past steps 1 and 2, a byte is stored at `off` and `off` advances if `inpkt = 1` and `off < 32`, and it
is not stored otherwise. (At `off = 31` the completion check then fixes the event; a 0x42 is stored at 0.) -/
def Obligations.FeedStoresWhileCapturing : Prop :=
  ∀ (b : Byte) (s : State), s.enabled = true →
    (b = 0x42#8 → ∃ t, exec (.feed b) s = .next t ∧ t.off = 1#6 ∧ t.buf.read 0#5 = b) ∧
    (b ≠ 0x42#8 → ¬ (s.off = 1#6 ∧ b ≠ 0x4D#8) → s.inpkt = true → s.off < 31#6 →
      exec (.feed b) s = .next
        { s with buf := s.buf.write (s.off.setWidth 5) b, off := s.off + 1#6, event := none }) ∧
    (b ≠ 0x42#8 → s.inpkt = true → s.off = 31#6 →
      ∃ e, exec (.feed b) s = .next { s with buf := s.buf.write 31#5 b, off := 32#6, event := e }) ∧
    (b ≠ 0x42#8 → ¬ (s.off = 1#6 ∧ b ≠ 0x4D#8) → (s.inpkt = false ∨ 32#6 ≤ s.off) →
      exec (.feed b) s = .next { s with event := none })

/-- 40_assembler.md R70 and 41_validate_decode.md R80 to R83, R88: the FEED that stores byte 31 runs the completion check on the
buffer it leaves: length first, then the sum of bytes 0 to 29 mod 2^16, then delivery if a consumer is registered. -/
def Obligations.FeedCompletesACandidate : Prop :=
  ∀ (b : Byte) (s : State), s.enabled = true → s.inpkt = true → s.off = 31#6 → b ≠ 0x42#8 →
    let m := s.buf.write 31#5 b
    exec (.feed b) s = .next
      { s with
        buf := m
        off := 32#6
        event :=
          if (m.read 2#5).toNat * 256 + (m.read 3#5).toNat ≠ 28 then some (.diag .lenMismatch)
          else if ((List.range 30).map fun i => (m.read (BitVec.ofNat 5 i)).toNat).sum % 65536 ≠
              (m.read 30#5).toNat * 256 + (m.read 31#5).toNat then some (.diag .cksumMismatch)
          else if s.sinkPresent = true then some (.record (decodeRecord m))
          else none }

/-- 40_assembler.md R72 (derived there from R67 to R69): a byte that is not 0x42 and is not stored changes no state, and emits
nothing but the DESYNC of R68. -/
def Obligations.FeedIgnoredByteChangesNothing : Prop :=
  ∀ (b : Byte) (s t : State), s.enabled = true → b ≠ 0x42#8 → exec (.feed b) s = .next t →
    ((s.inpkt = false ∧ (s.off = 0#6 ∨ s.off = 1#6)) ∨ s.off = 32#6) →
    t = { s with event := t.event } ∧
      (t.event = if s.off = 1#6 ∧ b ≠ 0x4D#8 then some (.diag .desync) else none)

/-- The frame of FEED (40_assembler.md R65: "FEED never writes `enabled` or `sink_present`"; 20_memory.md R32): nothing but
`off`, `inpkt`, the event and the one byte at the slot it stores to may change. -/
def Obligations.FeedFrame : Prop :=
  ∀ (b : Byte) (s t : State), exec (.feed b) s = .next t →
    t.enabled = s.enabled ∧ t.sinkPresent = s.sinkPresent ∧ t.fault = s.fault ∧ t.inputs = s.inputs ∧
    (∀ a, feedSlot b s = some a →
      t.buf.read a = b ∧ (a = 0 ∨ a = s.off.setWidth 5) ∧ ∀ a' : Addr, a' ≠ a → t.buf.read a' = s.buf.read a') ∧
    (feedSlot b s = none → ∀ a' : Addr, t.buf.read a' = s.buf.read a')

/-- 30_encoding.md R52: at the second byte of a capture the class of the byte selects the case of FEED. -/
def Obligations.ByteClassSelectsTheSecondByteCase : Prop :=
  ∀ (b : Byte) (s : State), s.enabled = true → s.off = 1#6 → s.inpkt = true →
    exec (.feed b) s = .next
      (match byteClass b with
       | .marker1 => { s with buf := s.buf.write 0#5 0x42#8, event := none }
       | .marker2 => { s with buf := s.buf.write 1#5 0x4D#8, off := 2#6, event := none }
       | .data => { s with inpkt := false, event := some (.diag .desync) })

/-- 60_exceptions.md R105: when each of the three error classes is reported, from every state in which the block takes bytes.
None traps or stops the block: FEED answers a next state. -/
def Obligations.DiagnosticsExactlyWhenTheirConditionHolds : Prop :=
  ∀ (b : Byte) (s : State), s.enabled = true →
    ∃ t, exec (.feed b) s = .next t ∧
      (t.event = some (.diag .desync) ↔ s.off = 1#6 ∧ b ≠ 0x42#8 ∧ b ≠ 0x4D#8) ∧
      (t.event = some (.diag .lenMismatch) ↔
        b ≠ 0x42#8 ∧ s.inpkt = true ∧ s.off = 31#6 ∧ be16 (t.buf.read 2#5) (t.buf.read 3#5) ≠ 28#16) ∧
      (t.event = some (.diag .cksumMismatch) ↔
        b ≠ 0x42#8 ∧ s.inpkt = true ∧ s.off = 31#6 ∧ be16 (t.buf.read 2#5) (t.buf.read 3#5) = 28#16 ∧
          BitVec.ofNat 16 ((List.range 30).map fun i => (t.buf.read (BitVec.ofNat 5 i)).toNat).sum ≠
            be16 (t.buf.read 30#5) (t.buf.read 31#5))

/-- 41_validate_decode.md R91 with R88: a step delivers a record only where it is a FEED, while enabled and with a consumer,
that stored byte 31 of a frame whose length and checksum are right, and the record is that frame's. -/
def Obligations.RecordsOnlyFromValidatedFrames : Prop :=
  ∀ s t r, step s = .next t → t.event = some (.record r) →
    s.enabled = true ∧ s.sinkPresent = true ∧ s.inpkt = true ∧ s.off = 31#6 ∧ t.off = 32#6 ∧ t.inpkt = true ∧
    (∃ cmd b, s.inputs.head? = some (.txn cmd) ∧ decode cmd = .instr (.feed b) ∧ b ≠ 0x42#8 ∧
      t.buf.read 31#5 = b) ∧
    be16 (t.buf.read 2#5) (t.buf.read 3#5) = 28#16 ∧
    BitVec.ofNat 16 ((List.range 30).map fun i => (t.buf.read (BitVec.ofNat 5 i)).toNat).sum =
      be16 (t.buf.read 30#5) (t.buf.read 31#5) ∧
    r = decodeRecord t.buf

/-! ## ENABLE and DISABLE -/

/-- 42_lifecycle.md R95, R96: ENABLE sets `enabled`, replaces `sink_present` by its operand whether or not the path was open,
and leaves `off`, `inpkt` and `buf` alone, with no event. -/
def Obligations.EnableOpensThePath : Prop :=
  ∀ (p : Bool) (s : State),
    exec (.enable p) s = .next { s with enabled := true, sinkPresent := p, event := none }

/-- 42_lifecycle.md R97: DISABLE clears `enabled` and `sink_present` and leaves `off`, `inpkt` and `buf` alone, with no
event. -/
def Obligations.DisableClosesThePath : Prop :=
  ∀ s : State, exec .disable s = .next { s with enabled := false, sinkPresent := false, event := none }

/-- The frame of ENABLE and DISABLE (42_lifecycle.md R99, R103, derived there): the assembler's state, every buffer byte, the
fault mark and the waiting inputs stay, and no event is emitted. -/
def Obligations.LifecycleFrame : Prop :=
  ∀ (i : Instr) (s t : State), (∀ b, i ≠ .feed b) → exec i s = .next t →
    t.off = s.off ∧ t.inpkt = s.inpkt ∧ (∀ a : Addr, t.buf.read a = s.buf.read a) ∧
    t.fault = s.fault ∧ t.inputs = s.inputs ∧ t.event = none

/-- 20_memory.md R39 (derived there): ENABLE with the same argument and DISABLE are idempotent; FEED is not. -/
def Obligations.LifecycleIsIdempotentAndFeedIsNot : Prop :=
  (∀ (i : Instr) (s t : State), (∀ b, i ≠ .feed b) → exec i s = .next t → exec i t = .next t) ∧
  ∃ (b : Byte) (s t : State), exec (.feed b) s = .next t ∧ exec (.feed b) t ≠ .next t

/-! ## Whole-machine rules: what may write what -/

/-- 10_state.md §1 (the rule of `inpkt`): `inpkt` is set only by a FEED of 0x42 while enabled; it is cleared only by a FEED that fails the
second-byte check, and by reset. -/
def Obligations.InpktWrittenOnlyByFeed : Prop :=
  ∀ s t, step s = .next t →
    (s.inpkt = false → t.inpkt = true →
      s.enabled = true ∧ ∃ cmd, s.inputs.head? = some (.txn cmd) ∧ decode cmd = .instr (.feed 0x42#8)) ∧
    (s.inpkt = true → t.inpkt = false →
      s.inputs.head? = some .reset ∨
      (s.enabled = true ∧ s.off = 1#6 ∧ t.off = 1#6 ∧ t.event = some (.diag .desync) ∧
        ∃ cmd b, s.inputs.head? = some (.txn cmd) ∧ decode cmd = .instr (.feed b) ∧ b ≠ 0x42#8 ∧ b ≠ 0x4D#8))

/-- 10_state.md §1 and §2 (the rules of `off`): only a FEED while enabled and reset write `off`. A 0x42 sets it to 0 and its store
advances it, so it goes to 1; any other byte advances it by exactly 1, from below 32 while capturing, and is stored at the old
`off`; reset writes 0. -/
def Obligations.OffsetMovesOnlyByCapture : Prop :=
  ∀ s t, step s = .next t → t.off ≠ s.off →
    (s.inputs.head? = some .reset ∧ t.off = 0#6) ∨
    (s.enabled = true ∧ ∃ cmd b, s.inputs.head? = some (.txn cmd) ∧ decode cmd = .instr (.feed b) ∧
      ((b = 0x42#8 ∧ t.off = 1#6 ∧ t.inpkt = true ∧ t.buf.read 0#5 = 0x42#8) ∨
       (b ≠ 0x42#8 ∧ s.inpkt = true ∧ s.off < 32#6 ∧ t.off.toNat = s.off.toNat + 1 ∧ t.inpkt = true ∧
         t.buf.read (s.off.setWidth 5) = b)))

/-- 10_state.md §1 (the rules of the two bits): `enabled` and `sink_present` are written only by ENABLE (1 and its argument), DISABLE (0 and 0)
and reset. -/
def Obligations.PathBitsWrittenOnlyByLifecycle : Prop :=
  ∀ s t, step s = .next t → (t.enabled ≠ s.enabled ∨ t.sinkPresent ≠ s.sinkPresent) →
    (s.inputs.head? = some .reset ∧ t.enabled = false ∧ t.sinkPresent = false) ∨
    ∃ cmd, (s.inputs.head? = some (.txn cmd) ∨ s.inputs.head? = some (.react cmd)) ∧
      ((∃ p, decode cmd = .instr (.enable p) ∧ t.enabled = true ∧ t.sinkPresent = p) ∨
       (decode cmd = .instr .disable ∧ t.enabled = false ∧ t.sinkPresent = false))

/-! ## Invariants -/

/-- The reset state meets the invariants of 10_state.md R20 and R21, and its buffer has the canonical form. -/
def Obligations.ResetMeetsTheInvariants : Prop :=
  State.reset.assemblyInv ∧ State.reset.captureInv ∧ State.reset.buf.wf

/-- 10_state.md R20 (derived there): every step keeps `(off, inpkt)` in { (0,0), (1,0) } ∪ { (k,1) | 1 ≤ k ≤ 32 }. -/
def Obligations.StepKeepsTheAssemblyStates : Prop :=
  ∀ s t, s.assemblyInv → step s = .next t → t.assemblyInv

/-- 10_state.md R21 (derived there): every step keeps what the captured bytes are: 0x42, then 0x4D, then no 0x42. -/
def Obligations.StepKeepsTheCapturedMarkers : Prop :=
  ∀ s t, s.assemblyInv → s.captureInv → step s = .next t → t.captureInv

/-- Every step keeps the buffer's canonical form (20_memory.md R30: 32 bytes at addresses 0 to 31). The form is the model's,
log entry 15. -/
def Obligations.StepKeepsTheBufferCanonical : Prop :=
  ∀ s t, s.buf.wf → step s = .next t → t.buf.wf

/-- Buffers in canonical form that read alike at every address are equal data. The form is the model's, log entry 15. -/
def Obligations.BuffersThatReadAlikeAreEqual : Prop :=
  ∀ m n : Memory, m.wf → n.wf → (∀ a : Addr, m.read a = n.read a) → m = n

/-- 10_state.md R22 (derived there) and R27: "no observation depends on" stale bytes. Two states alike but for buffer bytes at
`off` and above give the same events under every input sequence, and stay alike. -/
def Obligations.StaleBytesAreUnobservable : Prop :=
  ∀ (ins : List Input) (s t : State), s.sameButStale t →
    (observe ins s).1 = (observe ins t).1 ∧ (observe ins s).2.sameButStale (observe ins t).2

/-! ## Validation -/

/-- 41_validate_decode.md R85 and 30_encoding.md R53 (derived there): the sum of a candidate's bytes 0 to 29 is at most 7283,
and between 171 and 6801 where the length is right, so "mod 2^16" never changes it. -/
def Obligations.CandidateSumIsBounded : Prop :=
  ∀ s : State, s.captureInv → s.off = 32#6 →
    byteSum s.buf 30 ≤ 7283 ∧ (checksum s.buf).toNat = byteSum s.buf 30 ∧
    (lengthField s.buf = 28#16 → 171 ≤ byteSum s.buf 30 ∧ byteSum s.buf 30 ≤ 6801)

/-- 41_validate_decode.md R86 and R87: the record has twelve fields, field `k` the big-endian value at `4 + 2k`; bytes outside
4 to 27, the reserved pair among them, do not count. -/
def Obligations.DecodeReadsTheFieldTable : Prop :=
  (∀ m : Memory, (decodeRecord m).toList.map BitVec.toNat =
    (List.range 12).map fun k =>
      (m.read (BitVec.ofNat 5 (4 + 2 * k))).toNat * 256 + (m.read (BitVec.ofNat 5 (5 + 2 * k))).toNat) ∧
  ∀ m n : Memory, (∀ a : Addr, 4 ≤ a.toNat → a.toNat ≤ 27 → m.read a = n.read a) →
    decodeRecord m = decodeRecord n

/-- 41_validate_decode.md R89 and R94: `Complete()` changes no state but the output, and its event depends only on the 32
bytes and `sink_present`. -/
def Obligations.CompleteWritesNoState : Prop :=
  (∀ s : State, complete s = { s with event := (complete s).event }) ∧
  ∀ s t : State, (∀ a : Addr, s.buf.read a = t.buf.read a) → s.sinkPresent = t.sinkPresent →
    s.event = t.event → (complete s).event = (complete t).event

/-! ## Sequences of transactions -/

/-- 42_lifecycle.md R104 (derived there): while disabled, no sequence of FEEDs delivers an event or changes state. -/
def Obligations.DisabledFeedsAreSilent : Prop :=
  ∀ (bs : List Byte) (s : State), s.enabled = false →
    (observe (feedInputs bs) s).1 = [] ∧
    { (observe (feedInputs bs) s).2 with event := none } = { s with inputs := [], event := none }

/-- 42_lifecycle.md R99 (derived there): a DISABLE, any FEEDs, and an ENABLE leave the partial capture as it was. -/
def Obligations.CaptureSurvivesDisableAndEnable : Prop :=
  ∀ (bs : List Byte) (p : Bool) (s : State),
    observe (.txn (encode .disable) :: feedInputs bs ++ [.txn (encode (.enable p))]) s =
      ([], { s with enabled := true, sinkPresent := p, event := none, inputs := [] })

/-- 00_scope.md R1 and 90_conflicts.md C6: from ANY state with the path open and a consumer, the 32 bytes of a well-formed frame
with no 0x42 after its first byte emit exactly one event: at byte 31, the record of its twelve big-endian fields. -/
def Obligations.ValidFrameYieldsExactlyOneRecord : Prop :=
  ∀ (f : List Byte) (s : State), f.length = 32 → s.enabled = true → s.sinkPresent = true →
    f.getD 0 0#8 = 0x42#8 → f.getD 1 0#8 = 0x4D#8 → (∀ i, 1 ≤ i → i < 32 → f.getD i 0#8 ≠ 0x42#8) →
    be16 (f.getD 2 0#8) (f.getD 3 0#8) = 28#16 →
    listSum (f.take 30) % 65536 = (f.getD 30 0#8).toNat * 256 + (f.getD 31 0#8).toNat →
    ∃ r : Record, (observe (feedInputs f) s).1 = [(31, .record r)] ∧
      ∀ k, k < 12 → r.toList[k]? = some (be16 (f.getD (4 + 2 * k) 0#8) (f.getD (5 + 2 * k) 0#8))

/-- 41_validate_decode.md R81, R83, R84 over whole frames (95_test_vectors.md L1-2, L1-7): a frame with no 0x42 after its first
byte whose length is wrong emits one LEN_MISMATCH, and one whose length is right and checksum wrong one CKSUM_MISMATCH, at byte
31, with or without a consumer. -/
def Obligations.WrongFrameYieldsExactlyOneDiagnostic : Prop :=
  ∀ (f : List Byte) (s : State), f.length = 32 → s.enabled = true →
    f.getD 0 0#8 = 0x42#8 → f.getD 1 0#8 = 0x4D#8 → (∀ i, 1 ≤ i → i < 32 → f.getD i 0#8 ≠ 0x42#8) →
    (be16 (f.getD 2 0#8) (f.getD 3 0#8) ≠ 28#16 →
      (observe (feedInputs f) s).1 = [(31, .diag .lenMismatch)]) ∧
    (be16 (f.getD 2 0#8) (f.getD 3 0#8) = 28#16 →
      listSum (f.take 30) % 65536 ≠ (f.getD 30 0#8).toNat * 256 + (f.getD 31 0#8).toNat →
      (observe (feedInputs f) s).1 = [(31, .diag .cksumMismatch)])

/-- 30_encoding.md R63 and 41_validate_decode.md R86: what `FRAME` writes is read back: unless the frame carries a 0x42 after
its first byte (R64), the record delivered is the twelve values given, whatever the reserved pair. -/
def Obligations.WrittenFrameIsReadBack : Prop :=
  ∀ (v : Record) (res : Half) (s : State), s.enabled = true → s.sinkPresent = true →
    0x42#8 ∉ (frameBytes { values := v, res := res }).tail →
    (observe (AsmLine.expand (.frame { values := v, res := res })) s).1 = [(31, .record v)]

/-- 95_test_vectors.md L1-5, V-V15 (40_assembler.md R69, R70): the first `n < 32` bytes of a frame, with no 0x42 after the
first, emit nothing and leave a capture of `n` bytes. -/
def Obligations.TruncatedFrameIsSilent : Prop :=
  ∀ (f : List Byte) (s : State), 1 ≤ f.length → f.length ≤ 31 → s.enabled = true →
    f.getD 0 0#8 = 0x42#8 → (2 ≤ f.length → f.getD 1 0#8 = 0x4D#8) →
    (∀ i, 1 ≤ i → i < f.length → f.getD i 0#8 ≠ 0x42#8) →
    (observe (feedInputs f) s).1 = [] ∧
    (observe (feedInputs f) s).2.off.toNat = f.length ∧ (observe (feedInputs f) s).2.inpkt = true ∧
    ∀ a : Addr, a.toNat < f.length → (observe (feedInputs f) s).2.buf.read a = f.getD a.toNat 0#8

/-- 40_assembler.md R74 and 70_reset_and_hazards.md R133 (derived there): a frame that carries 0x42 at an offset from 1 to 31 is
never validated: after no byte of it is `off` 32, so none completes a candidate, and the only events are DESYNC. -/
def Obligations.InteriorMarkerLosesTheFrame : Prop :=
  ∀ (f : List Byte) (s : State) (j : Nat), f.length = 32 → s.enabled = true →
    f.getD 0 0#8 = 0x42#8 → 1 ≤ j → j < 32 → f.getD j 0#8 = 0x42#8 →
    (∀ k, 1 ≤ k → k ≤ 32 → (observe (feedInputs (f.take k)) s).2.off ≠ 32#6) ∧
    ∀ n e, (n, e) ∈ (observe (feedInputs f) s).1 → e = .diag .desync

/-- 60_exceptions.md R107 and 40_assembler.md R75 (derived there): in the parked state each byte other than 0x42 and 0x4D
re-emits DESYNC, a 0x4D is ignored silently, and the block stays parked. -/
def Obligations.ParkedBytesReemitDesync : Prop :=
  ∀ (bs : List Byte) (s : State), s.enabled = true → s.parked → 0x42#8 ∉ bs →
    diagCodes (observe (feedInputs bs) s).1 = List.replicate (bs.countP (· != 0x4D#8)) .desync ∧
    { (observe (feedInputs bs) s).2 with event := none } = { s with inputs := [], event := none }

/-- 40_assembler.md R73 and R70: after a candidate, delivered or discarded, nothing happens until the next 0x42: no byte is
stored, no check runs again, no event is repeated. -/
def Obligations.NothingFollowsACandidateButAMarker : Prop :=
  ∀ (bs : List Byte) (s : State), s.enabled = true → s.off = 32#6 → 0x42#8 ∉ bs →
    (observe (feedInputs bs) s).1 = [] ∧
    { (observe (feedInputs bs) s).2 with event := none } = { s with inputs := [], event := none }

/-- 70_reset_and_hazards.md R129 (derived there): from reset, whatever came before the first ENABLE (FEEDs among it), no record
is delivered by inputs that hold fewer than 32 FEED words after that ENABLE. `inp` stands where the first ENABLE may stand; if
no ENABLE comes before `ins` either, the same holds. -/
def Obligations.FirstRecordNeedsThirtyTwoFeeds : Prop :=
  ∀ (pre : List Input) (inp : Input) (ins : List Input),
    (∀ i ∈ pre, opensPath i = false) → ins.countP isFeedWord < 32 →
    ∀ n r, (n, .record r) ∉ (observe (pre ++ inp :: ins) State.reset).1

/-! ## Assembler and diagnostic sink -/

/-- 30_encoding.md R63: `FRAME` expands to the 32 FEEDs of one frame, its bytes in offset order, with the defaults of `R`, `L`
and `C`. -/
def Obligations.FrameWritesTheWireLayout : Prop :=
  (∀ v : Record, ({ values := v } : FrameArgs) = { values := v, res := 0#16, len := 28#16, ck := none }) ∧
  ∀ f : FrameArgs,
    AsmLine.expand (.frame f) = (frameBytes f).map (fun b => .txn (encode (.feed b))) ∧
    (frameBytes f).length = 32 ∧
    (frameBytes f).getD 0 0#8 = 0x42#8 ∧ (frameBytes f).getD 1 0#8 = 0x4D#8 ∧
    be16 ((frameBytes f).getD 2 0#8) ((frameBytes f).getD 3 0#8) = f.len ∧
    (∀ k v, f.values.toList[k]? = some v →
      be16 ((frameBytes f).getD (4 + 2 * k) 0#8) ((frameBytes f).getD (5 + 2 * k) 0#8) = v) ∧
    be16 ((frameBytes f).getD 28 0#8) ((frameBytes f).getD 29 0#8) = f.res ∧
    be16 ((frameBytes f).getD 30 0#8) ((frameBytes f).getD 31 0#8) =
      f.ck.getD (BitVec.ofNat 16 (listSum ((frameBytes f).take 30)))

/-- 60_exceptions.md R112 with D10, R105 and R106: whatever the diagnostic sink is, it logs of an observation at most one code
for each FEED word, and each code it logs was emitted by a FEED, in that FEED's step, that met the condition of the code in the
state before it. That the sink is a relation whose logged codes are a subsequence of the emitted ones is the model's, log entry
11. -/
def Obligations.LoggedCodesComeFromTheirErrors : Prop :=
  ∀ (sink : DiagSink) (ins : List Input) (s : State) (logged : List DiagCode),
    sink.logs (diagCodes (observe ins s).1) logged →
    logged.length ≤ ins.countP isFeedWord ∧
    ∀ c ∈ logged, ∃ k cmd b, (k, Event.diag c) ∈ (observe ins s).1 ∧
      ins[k]? = some (.txn cmd) ∧ decode cmd = .instr (.feed b) ∧ c.condition b (observe (ins.take k) s).2

/-! ## How a record comes about, one step at a time -/

/-- The step behind 70_reset_and_hazards.md R129 and 40_assembler.md R67, R69, R70, from every state: `off` rises by at most one,
and only for a FEED word while enabled; a FEED of 0x42 while enabled leaves it at 1; and a record is delivered only where `off`
was 31. -/
def Obligations.OffsetRisesByOneAndARecordNeedsThirtyOne : Prop :=
  ∀ s t, step s = .next t →
    t.off.toNat ≤ s.off.toNat + 1 ∧
    (s.off < t.off →
      s.enabled = true ∧ ∃ cmd b, s.inputs.head? = some (.txn cmd) ∧ decode cmd = .instr (.feed b)) ∧
    (∀ cmd, s.enabled = true → s.inputs.head? = some (.txn cmd) → decode cmd = .instr (.feed 0x42#8) →
      t.off = 1#6) ∧
    ∀ r, t.event = some (.record r) → s.off = 31#6
end

