-- ==== Sys2Proof/Laws/Memory.lean ====
section
/-! SUPPORT. The laws of the frame buffer: a read after a write, and the canonical form (20_memory.md R30, R32). -/

namespace Sys2Proof.Machine

theorem readCell_eraseCell_same (a : Nat) (m : Memory) :
    readCell (eraseCell a m) a = Config.unwrittenByte := by
  induction m with
  | nil => rfl
  | cons c m ih => by_cases h : c.1 = a <;> simp [eraseCell, readCell, h, ih]

theorem readCell_eraseCell_other {a a' : Nat} (h : a' ≠ a) (m : Memory) :
    readCell (eraseCell a m) a' = readCell m a' := by
  induction m with
  | nil => rfl
  | cons c m ih =>
    by_cases hc : c.1 = a
    · simp [eraseCell, readCell, hc, ih, Ne.symm h]
    · simp [eraseCell, readCell, hc, ih]

theorem readCell_insertCell_same (a : Nat) (b : Byte) (m : Memory) (h : ∀ c ∈ m, c.1 ≠ a) :
    readCell (insertCell a b m) a = b := by
  induction m with
  | nil => simp [insertCell, readCell]
  | cons c m ih =>
    simp only [List.mem_cons, forall_eq_or_imp] at h
    by_cases hc : a < c.1 <;> simp [insertCell, readCell, hc, h.1, ih h.2]

theorem readCell_insertCell_other {a a' : Nat} (h : a' ≠ a) (b : Byte) (m : Memory) :
    readCell (insertCell a b m) a' = readCell m a' := by
  induction m with
  | nil => simp [insertCell, readCell, Ne.symm h]
  | cons c m ih => by_cases hc : a < c.1 <;> simp [insertCell, readCell, hc, Ne.symm h, ih]

theorem mem_eraseCell {a : Nat} {c : Host.Cell} {m : Memory} :
    c ∈ eraseCell a m ↔ c ∈ m ∧ c.1 ≠ a := by
  induction m with
  | nil => simp [eraseCell]
  | cons d m ih =>
    by_cases hd : d.1 = a
    · simp only [eraseCell, hd, if_true, ih, List.mem_cons]
      constructor
      · rintro ⟨h, h'⟩; exact ⟨.inr h, h'⟩
      · rintro ⟨rfl | h, h'⟩
        · exact absurd hd h'
        · exact ⟨h, h'⟩
    · simp only [eraseCell, hd, if_false, List.mem_cons, ih]
      constructor
      · rintro (rfl | ⟨h, h'⟩)
        · exact ⟨.inl rfl, hd⟩
        · exact ⟨.inr h, h'⟩
      · rintro ⟨rfl | h, h'⟩
        · exact .inl rfl
        · exact .inr ⟨h, h'⟩

theorem mem_insertCell {a : Nat} {b : Byte} {c : Host.Cell} {m : Memory} :
    c ∈ insertCell a b m ↔ c = (a, b) ∨ c ∈ m := by
  induction m with
  | nil => simp [insertCell]
  | cons d m ih =>
    by_cases hd : a < d.1 <;> simp only [insertCell, hd, if_true, if_false, List.mem_cons, ih]
    tauto

/-- A read of the cell just written gives the byte written, in every buffer. -/
@[simp] theorem read_write_same (m : Memory) (a : Addr) (b : Byte) : (m.write a b).read a = b := by
  unfold Memory.read Memory.write
  split
  · rename_i h; rw [readCell_eraseCell_same, h]
  · exact readCell_insertCell_same _ _ _ fun c hc => (mem_eraseCell.1 hc).2

/-- A write leaves every other byte alone, in every buffer. -/
theorem read_write_other (m : Memory) {a a' : Addr} (h : a' ≠ a) (b : Byte) :
    (m.write a b).read a' = m.read a' := by
  have hn : a'.toNat ≠ a.toNat := fun h' => h (BitVec.eq_of_toNat_eq h')
  unfold Memory.read Memory.write
  split
  · exact readCell_eraseCell_other hn m
  · rw [readCell_insertCell_other hn, readCell_eraseCell_other hn]

theorem pairwise_eraseCell {a : Nat} {m : Memory} (h : m.Pairwise fun c d => c.1 < d.1) :
    (eraseCell a m).Pairwise fun c d => c.1 < d.1 := by
  induction m with
  | nil => exact h
  | cons c m ih =>
    rw [List.pairwise_cons] at h
    unfold eraseCell
    split
    · exact ih h.2
    · exact List.pairwise_cons.2 ⟨fun d hd => h.1 d (mem_eraseCell.1 hd).1, ih h.2⟩

theorem pairwise_insertCell {a : Nat} {b : Byte} {m : Memory} (h : m.Pairwise fun c d => c.1 < d.1)
    (ha : ∀ c ∈ m, c.1 ≠ a) : (insertCell a b m).Pairwise fun c d => c.1 < d.1 := by
  induction m with
  | nil => simp [insertCell]
  | cons c m ih =>
    have hc := List.pairwise_cons.1 h
    unfold insertCell
    split
    · rename_i hlt
      refine List.pairwise_cons.2 ⟨fun d hd => ?_, h⟩
      rcases List.mem_cons.1 hd with rfl | hd
      · exact hlt
      · exact hlt.trans (hc.1 d hd)
    · rename_i hlt
      refine List.pairwise_cons.2 ⟨fun d hd => ?_, ih hc.2 fun d hd => ha d (List.mem_cons_of_mem _ hd)⟩
      rcases mem_insertCell.1 hd with rfl | hd
      · have := ha c List.mem_cons_self
        simp only
        omega
      · exact hc.1 d hd

/-- The empty buffer is in canonical form. -/
theorem wf_nil : Memory.wf [] := ⟨List.Pairwise.nil, by simp⟩

/-- A write keeps the canonical form. -/
theorem write_wf {m : Memory} (h : m.wf) (a : Addr) (b : Byte) : (m.write a b).wf := by
  unfold Memory.write
  split
  · exact ⟨pairwise_eraseCell h.1, fun c hc => h.2 c (mem_eraseCell.1 hc).1⟩
  · rename_i hb
    refine ⟨pairwise_insertCell (pairwise_eraseCell h.1) fun c hc => (mem_eraseCell.1 hc).2, fun c hc => ?_⟩
    rcases mem_insertCell.1 hc with rfl | hc
    · exact ⟨a.isLt, hb⟩
    · exact h.2 c (mem_eraseCell.1 hc).1

end Sys2Proof.Machine
end

