-- ==== Sys2Proof/Laws/State.lean ====
section
/-! SUPPORT. What each update of the state does to each field, so that no proof unfolds a record update. -/

namespace Sys2Proof.Machine

variable (s : State)

@[simp] theorem quiet_buf : (quiet s).buf = s.buf := rfl
@[simp] theorem quiet_off : (quiet s).off = s.off := rfl
@[simp] theorem quiet_inpkt : (quiet s).inpkt = s.inpkt := rfl
@[simp] theorem quiet_enabled : (quiet s).enabled = s.enabled := rfl
@[simp] theorem quiet_sinkPresent : (quiet s).sinkPresent = s.sinkPresent := rfl
@[simp] theorem quiet_fault : (quiet s).fault = s.fault := rfl
@[simp] theorem quiet_event : (quiet s).event = none := rfl
@[simp] theorem quiet_inputs : (quiet s).inputs = s.inputs := rfl

@[simp] theorem emit_buf (e : Event) : (emit e s).buf = s.buf := rfl
@[simp] theorem emit_off (e : Event) : (emit e s).off = s.off := rfl
@[simp] theorem emit_inpkt (e : Event) : (emit e s).inpkt = s.inpkt := rfl
@[simp] theorem emit_enabled (e : Event) : (emit e s).enabled = s.enabled := rfl
@[simp] theorem emit_sinkPresent (e : Event) : (emit e s).sinkPresent = s.sinkPresent := rfl
@[simp] theorem emit_fault (e : Event) : (emit e s).fault = s.fault := rfl
@[simp] theorem emit_event (e : Event) : (emit e s).event = some e := rfl
@[simp] theorem emit_inputs (e : Event) : (emit e s).inputs = s.inputs := rfl

@[simp] theorem raise_buf (r : FaultReason) : (raise r s).buf = s.buf := rfl
@[simp] theorem raise_off (r : FaultReason) : (raise r s).off = s.off := rfl
@[simp] theorem raise_inpkt (r : FaultReason) : (raise r s).inpkt = s.inpkt := rfl
@[simp] theorem raise_enabled (r : FaultReason) : (raise r s).enabled = s.enabled := rfl
@[simp] theorem raise_sinkPresent (r : FaultReason) : (raise r s).sinkPresent = s.sinkPresent := rfl
@[simp] theorem raise_fault (r : FaultReason) : (raise r s).fault = some (s.fault.getD r) := rfl
@[simp] theorem raise_event (r : FaultReason) : (raise r s).event = none := rfl
@[simp] theorem raise_inputs (r : FaultReason) : (raise r s).inputs = s.inputs := rfl

@[simp] theorem memWrite_buf (a : Addr) (b : Byte) : (memWrite a b s).buf = s.buf.write a b := rfl
@[simp] theorem memWrite_off (a : Addr) (b : Byte) : (memWrite a b s).off = s.off := rfl
@[simp] theorem memWrite_inpkt (a : Addr) (b : Byte) : (memWrite a b s).inpkt = s.inpkt := rfl
@[simp] theorem memWrite_enabled (a : Addr) (b : Byte) : (memWrite a b s).enabled = s.enabled := rfl
@[simp] theorem memWrite_sinkPresent (a : Addr) (b : Byte) : (memWrite a b s).sinkPresent = s.sinkPresent := rfl
@[simp] theorem memWrite_fault (a : Addr) (b : Byte) : (memWrite a b s).fault = s.fault := rfl
@[simp] theorem memWrite_event (a : Addr) (b : Byte) : (memWrite a b s).event = s.event := rfl
@[simp] theorem memWrite_inputs (a : Addr) (b : Byte) : (memWrite a b s).inputs = s.inputs := rfl

@[simp] theorem storeByte_buf (a : Addr) (b : Byte) : (storeByte a b s).buf = s.buf.write a b := rfl
@[simp] theorem storeByte_off (a : Addr) (b : Byte) : (storeByte a b s).off = s.off + 1#6 := rfl
@[simp] theorem storeByte_inpkt (a : Addr) (b : Byte) : (storeByte a b s).inpkt = s.inpkt := rfl
@[simp] theorem storeByte_enabled (a : Addr) (b : Byte) : (storeByte a b s).enabled = s.enabled := rfl
@[simp] theorem storeByte_sinkPresent (a : Addr) (b : Byte) : (storeByte a b s).sinkPresent = s.sinkPresent := rfl
@[simp] theorem storeByte_fault (a : Addr) (b : Byte) : (storeByte a b s).fault = s.fault := rfl
@[simp] theorem storeByte_event (a : Addr) (b : Byte) : (storeByte a b s).event = s.event := rfl
@[simp] theorem storeByte_inputs (a : Addr) (b : Byte) : (storeByte a b s).inputs = s.inputs := rfl

@[simp] theorem resetBlock_buf : (resetBlock s).buf = [] := rfl
@[simp] theorem resetBlock_off : (resetBlock s).off = 0#6 := rfl
@[simp] theorem resetBlock_inpkt : (resetBlock s).inpkt = false := rfl
@[simp] theorem resetBlock_enabled : (resetBlock s).enabled = false := rfl
@[simp] theorem resetBlock_sinkPresent : (resetBlock s).sinkPresent = false := rfl
@[simp] theorem resetBlock_fault : (resetBlock s).fault = none := rfl
@[simp] theorem resetBlock_event : (resetBlock s).event = none := rfl
@[simp] theorem resetBlock_inputs : (resetBlock s).inputs = s.inputs := rfl

@[simp] theorem beginCapture_buf : (beginCapture s).buf = s.buf := rfl
@[simp] theorem beginCapture_off : (beginCapture s).off = 0#6 := rfl
@[simp] theorem beginCapture_inpkt : (beginCapture s).inpkt = true := rfl
@[simp] theorem beginCapture_enabled : (beginCapture s).enabled = s.enabled := rfl
@[simp] theorem beginCapture_sinkPresent : (beginCapture s).sinkPresent = s.sinkPresent := rfl
@[simp] theorem beginCapture_fault : (beginCapture s).fault = s.fault := rfl
@[simp] theorem beginCapture_event : (beginCapture s).event = s.event := rfl
@[simp] theorem beginCapture_inputs : (beginCapture s).inputs = s.inputs := rfl

@[simp] theorem abandonCapture_buf : (abandonCapture s).buf = s.buf := rfl
@[simp] theorem abandonCapture_off : (abandonCapture s).off = s.off := rfl
@[simp] theorem abandonCapture_inpkt : (abandonCapture s).inpkt = false := rfl
@[simp] theorem abandonCapture_enabled : (abandonCapture s).enabled = s.enabled := rfl
@[simp] theorem abandonCapture_sinkPresent : (abandonCapture s).sinkPresent = s.sinkPresent := rfl
@[simp] theorem abandonCapture_fault : (abandonCapture s).fault = s.fault := rfl
@[simp] theorem abandonCapture_event : (abandonCapture s).event = s.event := rfl
@[simp] theorem abandonCapture_inputs : (abandonCapture s).inputs = s.inputs := rfl

@[simp] theorem openPath_buf (p : Bool) : (openPath p s).buf = s.buf := rfl
@[simp] theorem openPath_off (p : Bool) : (openPath p s).off = s.off := rfl
@[simp] theorem openPath_inpkt (p : Bool) : (openPath p s).inpkt = s.inpkt := rfl
@[simp] theorem openPath_enabled (p : Bool) : (openPath p s).enabled = true := rfl
@[simp] theorem openPath_sinkPresent (p : Bool) : (openPath p s).sinkPresent = p := rfl
@[simp] theorem openPath_fault (p : Bool) : (openPath p s).fault = s.fault := rfl
@[simp] theorem openPath_event (p : Bool) : (openPath p s).event = s.event := rfl
@[simp] theorem openPath_inputs (p : Bool) : (openPath p s).inputs = s.inputs := rfl

@[simp] theorem closePath_buf : (closePath s).buf = s.buf := rfl
@[simp] theorem closePath_off : (closePath s).off = s.off := rfl
@[simp] theorem closePath_inpkt : (closePath s).inpkt = s.inpkt := rfl
@[simp] theorem closePath_enabled : (closePath s).enabled = false := rfl
@[simp] theorem closePath_sinkPresent : (closePath s).sinkPresent = false := rfl
@[simp] theorem closePath_fault : (closePath s).fault = s.fault := rfl
@[simp] theorem closePath_event : (closePath s).event = s.event := rfl
@[simp] theorem closePath_inputs : (closePath s).inputs = s.inputs := rfl

@[simp] theorem takeInput_buf : (takeInput s).buf = s.buf := rfl
@[simp] theorem takeInput_off : (takeInput s).off = s.off := rfl
@[simp] theorem takeInput_inpkt : (takeInput s).inpkt = s.inpkt := rfl
@[simp] theorem takeInput_enabled : (takeInput s).enabled = s.enabled := rfl
@[simp] theorem takeInput_sinkPresent : (takeInput s).sinkPresent = s.sinkPresent := rfl
@[simp] theorem takeInput_fault : (takeInput s).fault = s.fault := rfl
@[simp] theorem takeInput_event : (takeInput s).event = none := rfl
@[simp] theorem takeInput_inputs : (takeInput s).inputs = s.inputs.tail := rfl

@[simp] theorem present_buf (cmd : Cmd) : (present cmd s).buf = s.buf := rfl
@[simp] theorem present_off (cmd : Cmd) : (present cmd s).off = s.off := rfl
@[simp] theorem present_inpkt (cmd : Cmd) : (present cmd s).inpkt = s.inpkt := rfl
@[simp] theorem present_enabled (cmd : Cmd) : (present cmd s).enabled = s.enabled := rfl
@[simp] theorem present_sinkPresent (cmd : Cmd) : (present cmd s).sinkPresent = s.sinkPresent := rfl
@[simp] theorem present_fault (cmd : Cmd) : (present cmd s).fault = s.fault := rfl
@[simp] theorem present_event (cmd : Cmd) : (present cmd s).event = s.event := rfl
@[simp] theorem present_inputs (cmd : Cmd) : (present cmd s).inputs = .txn cmd :: s.inputs := rfl

end Sys2Proof.Machine
end

