-- ==== Sys2Proof/Laws/Feed.lean ====
section
/-! SUPPORT. One lemma for each shared operation of FEED, saying everything it can do (40_assembler.md R65 to R70,
41_validate_decode.md R80). -/

namespace Sys2Proof.Machine

/-- `Complete()` emits at most one event and does nothing else (R89). -/
theorem complete_cases (s : State) : complete s = s ∨ ∃ e, complete s = emit e s := by
  unfold complete
  split
  · exact .inr ⟨_, rfl⟩
  · split
    · exact .inr ⟨_, rfl⟩
    · split
      · exact .inr ⟨_, rfl⟩
      · exact .inl rfl

/-- Writing `Complete()` as the one event it emits, or none. -/
theorem complete_eq (s : State) :
    complete s = match lengthOk s.buf, checksumOk s.buf, s.sinkPresent with
      | false, _, _ => emit (.diag .lenMismatch) s
      | true, false, _ => emit (.diag .cksumMismatch) s
      | true, true, true => emit (.record (decodeRecord s.buf)) s
      | true, true, false => s := by
  unfold complete
  cases lengthOk s.buf <;> cases checksumOk s.buf <;> cases s.sinkPresent <;> rfl

/-- The length check compares the declared length with 28 (R81). -/
theorem lengthOk_eq_true {m : Memory} : lengthOk m = true ↔ lengthField m = 28#16 := beq_iff_eq

/-- The checksum check compares the computed sum with the field (R83). -/
theorem checksumOk_eq_true {m : Memory} : checksumOk m = true ↔ checksum m = checksumField m := beq_iff_eq

/-- Steps 1 and 2 on a 0x42: a capture begins, and step 2 cannot fire (R67, R71). -/
theorem beforeStore_marker1 (s : State) :
    beforeStore Config.marker1 s = beginCapture (quiet s) := by
  rw [beforeStore, synchronise, if_pos rfl, secondByteCheck, if_neg]
  exact fun h => absurd h.1 (by rw [beginCapture_off]; decide)

/-- Steps 1 and 2 on any other byte: the second-byte check or nothing (R68). -/
theorem beforeStore_other {b : Byte} (hb : b ≠ Config.marker1) (s : State) :
    beforeStore b s =
      if s.off = 1#6 ∧ b ≠ Config.marker2 then emit (.diag .desync) (abandonCapture (quiet s)) else quiet s := by
  rw [beforeStore, synchronise, if_neg hb, secondByteCheck]
  rfl

/-- Step 3 has a place to store exactly while capturing with room (R69). -/
theorem storeSlot_eq_some {s : State} {a : Addr} :
    storeSlot s = some a ↔ (s.inpkt = true ∧ s.off < 32#6) ∧ a = s.off.setWidth 5 := by
  unfold storeSlot
  split
  · rename_i h; exact ⟨fun h' => ⟨h, (Option.some.inj h').symm⟩, fun h' => congrArg some h'.2.symm⟩
  · rename_i h; exact ⟨fun h' => (nomatch h'), fun h' => absurd h'.1 h⟩

/-- Step 3 stores nothing exactly when not capturing or full (R69, R72). -/
theorem storeSlot_eq_none {s : State} : storeSlot s = none ↔ ¬ (s.inpkt = true ∧ s.off < 32#6) := by
  unfold storeSlot
  split
  · rename_i h; exact ⟨fun h' => (nomatch h'), fun h' => absurd h h'⟩
  · rename_i h; exact ⟨fun _ => h, fun _ => rfl⟩

/-- FEED while disabled (R66). -/
theorem execFeed_disabled {b : Byte} {s : State} (h : s.enabled = false) : execFeed b s = .next (quiet s) := by
  rw [execFeed, if_neg (by simp [h])]

/-- FEED where step 3 stores (R69, R70). -/
theorem execFeed_store {b : Byte} {s : State} {a : Addr} (h : s.enabled = true)
    (ha : storeSlot (beforeStore b s) = some a) :
    execFeed b s = .next (completionTrigger (storeByte a b (beforeStore b s))) := by
  rw [execFeed, if_pos h, ha]

/-- FEED where step 3 does not store (R72). -/
theorem execFeed_ignore {b : Byte} {s : State} (h : s.enabled = true)
    (ha : storeSlot (beforeStore b s) = none) : execFeed b s = .next (beforeStore b s) := by
  rw [execFeed, if_pos h, ha]

/-- The trigger does nothing unless `off` is now 32 (R70). -/
theorem completionTrigger_of_ne {s : State} (h : s.off ≠ 32#6) : completionTrigger s = s := if_neg h

/-- The trigger runs the check where `off` is now 32 (R70). -/
theorem completionTrigger_of_eq {s : State} (h : s.off = 32#6) : completionTrigger s = complete s := if_pos h

/-- The trigger emits at most one event and does nothing else (R89, R106). -/
theorem completionTrigger_cases (s : State) :
    completionTrigger s = s ∨ (s.off = 32#6 ∧ ∃ e, completionTrigger s = emit e s) := by
  by_cases h : s.off = 32#6
  · rw [completionTrigger_of_eq h]
    rcases complete_cases s with h' | h'
    · exact .inl h'
    · exact .inr ⟨h, h'⟩
  · exact .inl (completionTrigger_of_ne h)

@[simp] theorem completionTrigger_buf (s : State) : (completionTrigger s).buf = s.buf := by
  rcases completionTrigger_cases s with e | ⟨_, _, e⟩ <;> simp [e]

@[simp] theorem completionTrigger_off (s : State) : (completionTrigger s).off = s.off := by
  rcases completionTrigger_cases s with e | ⟨_, _, e⟩ <;> simp [e]

@[simp] theorem completionTrigger_inpkt (s : State) : (completionTrigger s).inpkt = s.inpkt := by
  rcases completionTrigger_cases s with e | ⟨_, _, e⟩ <;> simp [e]

@[simp] theorem completionTrigger_enabled (s : State) : (completionTrigger s).enabled = s.enabled := by
  rcases completionTrigger_cases s with e | ⟨_, _, e⟩ <;> simp [e]

@[simp] theorem completionTrigger_sinkPresent (s : State) : (completionTrigger s).sinkPresent = s.sinkPresent := by
  rcases completionTrigger_cases s with e | ⟨_, _, e⟩ <;> simp [e]

@[simp] theorem completionTrigger_fault (s : State) : (completionTrigger s).fault = s.fault := by
  rcases completionTrigger_cases s with e | ⟨_, _, e⟩ <;> simp [e]

@[simp] theorem completionTrigger_inputs (s : State) : (completionTrigger s).inputs = s.inputs := by
  rcases completionTrigger_cases s with e | ⟨_, _, e⟩ <;> simp [e]

/-- Everything FEED can do (R65): disabled, a 0x42, a failed second byte, a store, or an ignored byte. -/
theorem execFeed_cases (b : Byte) (s : State) :
    (s.enabled = false ∧ execFeed b s = .next (quiet s)) ∨
    (s.enabled = true ∧ b = Config.marker1 ∧ execFeed b s = .next (storeByte 0#5 b (beginCapture (quiet s)))) ∨
    (s.enabled = true ∧ b ≠ Config.marker1 ∧ (s.off = 1#6 ∧ b ≠ Config.marker2) ∧
      execFeed b s = .next (emit (.diag .desync) (abandonCapture (quiet s)))) ∨
    (s.enabled = true ∧ b ≠ Config.marker1 ∧ ¬ (s.off = 1#6 ∧ b ≠ Config.marker2) ∧ (s.inpkt = true ∧ s.off < 32#6) ∧
      execFeed b s = .next (completionTrigger (storeByte (s.off.setWidth 5) b (quiet s)))) ∨
    (s.enabled = true ∧ b ≠ Config.marker1 ∧ ¬ (s.off = 1#6 ∧ b ≠ Config.marker2) ∧
      ¬ (s.inpkt = true ∧ s.off < 32#6) ∧ execFeed b s = .next (quiet s)) := by
  cases he : s.enabled with
  | false => exact .inl ⟨rfl, execFeed_disabled he⟩
  | true =>
    refine .inr ?_
    by_cases hb : b = Config.marker1
    · subst hb
      refine .inl ⟨rfl, rfl, ?_⟩
      rw [execFeed_store he (a := 0#5) (by rw [beforeStore_marker1]; rfl), beforeStore_marker1]
      exact congrArg _ (completionTrigger_of_ne (by rw [storeByte_off, beginCapture_off]; decide))
    · refine .inr ?_
      by_cases h2 : s.off = 1#6 ∧ b ≠ Config.marker2
      · have e := beforeStore_other hb s
        rw [if_pos h2] at e
        refine .inl ⟨rfl, hb, h2, ?_⟩
        rw [execFeed_ignore he (by rw [e]; exact storeSlot_eq_none.2 (by simp)), e]
      · have e := beforeStore_other hb s
        rw [if_neg h2] at e
        by_cases h3 : s.inpkt = true ∧ s.off < 32#6
        · refine .inr (.inl ⟨rfl, hb, h2, h3, ?_⟩)
          rw [execFeed_store he (a := s.off.setWidth 5) (by rw [e]; exact storeSlot_eq_some.2 ⟨h3, rfl⟩), e]
        · refine .inr (.inr ⟨rfl, hb, h2, h3, ?_⟩)
          rw [execFeed_ignore he (by rw [e]; exact storeSlot_eq_none.2 h3), e]

end Sys2Proof.Machine
end

