-- ==== Sys2Proof/Laws/PerInstr.lean ====
section
/-! SUPPORT. Per instruction: its word meets the match and mask of its row of the opcode table, and of no other row
(30_encoding.md R55). -/

namespace Sys2Proof.Laws.TableRow

/-- The row of the opcode table an instruction belongs to: match value and mask (R55). -/
def row : Instr → Cmd × Cmd
  | .feed _ => (0x000, 0xF00)
  | .enable _ => (0x100, 0xFFE)
  | .disable => (0x200, 0xFFF)

/-- The word meets its own row's match under that row's mask, and no other row's. -/
def Statement (i : Instr) : Prop :=
  (tableRows.filter fun r => encode i &&& r.2 == r.1) = [row i]

theorem feed (byte : Byte) : Statement (.feed byte) := by
  unfold Statement
  revert byte
  decide +kernel

theorem enable (sink : Bool) : Statement (.enable sink) := by
  unfold Statement
  revert sink
  decide

theorem disable : Statement .disable := by
  unfold Statement
  decide

end Sys2Proof.Laws.TableRow
end

