-- ==== Sys2Proof/Laws/Step.lean ====
section
/-! SUPPORT. Everything a step can do, by its oldest input (20_memory.md R38, R40). -/

namespace Sys2Proof.Machine

/-- Where no input waits the step idles; else its outcome is that of the action the oldest input asks for. -/
theorem step_cases (s : State) :
    (s.inputs = [] ∧ step s = .next (takeInput s)) ∨
    ∃ inp rest, s.inputs = inp :: rest ∧
      ((inp = .reset ∧ step s = .next (resetBlock (takeInput s))) ∨
       (∃ r, inputAction inp = .raise r ∧ step s = .next (raise r (takeInput s))) ∨
       (∃ i, inputAction inp = .execute i ∧ step s = exec i (takeInput s))) := by
  cases h : s.inputs with
  | nil => exact .inl ⟨rfl, by simp [step, nextAction, h]⟩
  | cons inp rest =>
    refine .inr ⟨inp, rest, rfl, ?_⟩
    cases ha : inputAction inp with
    | execute i => exact .inr (.inr ⟨i, rfl, by simp [step, nextAction, h, ha]⟩)
    | raise r => exact .inr (.inl ⟨r, rfl, by simp [step, nextAction, h, ha]⟩)
    | reset =>
      refine .inl ⟨?_, by simp [step, nextAction, h, ha]⟩
      cases inp with
      | reset => rfl
      | overlap cmd => cases ha
      | txn cmd => simp only [inputAction, wordAction] at ha; split at ha <;> cases ha
      | react cmd => simp only [inputAction, reactionAction] at ha; split at ha <;> cases ha
    | idle =>
      cases inp with
      | reset => cases ha
      | overlap cmd => cases ha
      | txn cmd => simp only [inputAction, wordAction] at ha; split at ha <;> cases ha
      | react cmd => simp only [inputAction, reactionAction] at ha; split at ha <;> cases ha

/-- An input is executed exactly when it is a legal word that starts in its turn, or a consumer's word other than FEED. -/
theorem inputAction_execute {inp : Input} {i : Instr} (h : inputAction inp = .execute i) :
    (∃ cmd, inp = .txn cmd ∧ decode cmd = .instr i) ∨
    (∃ cmd, inp = .react cmd ∧ decode cmd = .instr i ∧ ∀ b, i ≠ .feed b) := by
  cases inp with
  | reset => cases h
  | overlap cmd => cases h
  | txn cmd =>
    cases hd : decode cmd with
    | instr j => simp only [inputAction, wordAction, hd, Action.execute.injEq] at h; exact .inl ⟨cmd, rfl, h ▸ hd⟩
    | illegal w => simp [inputAction, wordAction, hd] at h
  | react cmd =>
    cases hd : decode cmd with
    | instr j =>
      cases j with
      | feed b => simp [inputAction, reactionAction, hd] at h
      | enable p =>
        simp only [inputAction, reactionAction, hd, Action.execute.injEq] at h
        subst h
        exact .inr ⟨cmd, rfl, hd, fun b => by simp⟩
      | disable =>
        simp only [inputAction, reactionAction, hd, Action.execute.injEq] at h
        subst h
        exact .inr ⟨cmd, rfl, hd, fun b => by simp⟩
    | illegal w => simp [inputAction, reactionAction, hd] at h

/-- A fault is raised for an illegal word, an overlap, or a consumer's FEED (R117 to R119). -/
theorem inputAction_raise {inp : Input} {r : FaultReason} (h : inputAction inp = .raise r) :
    (∃ cmd, (inp = .txn cmd ∨ inp = .react cmd) ∧ (decode cmd).instr? = none ∧ r = .illegalCommand cmd) ∨
    (r = .reentrantAccess ∧
      ((∃ cmd, inp = .overlap cmd) ∨ ∃ cmd b, inp = .react cmd ∧ decode cmd = .instr (.feed b))) := by
  cases inp with
  | reset => cases h
  | overlap cmd =>
    simp only [inputAction, Action.raise.injEq] at h
    exact .inr ⟨h.symm, .inl ⟨cmd, rfl⟩⟩
  | txn cmd =>
    cases hd : decode cmd with
    | instr j => simp [inputAction, wordAction, hd] at h
    | illegal w =>
      simp only [inputAction, wordAction, hd, Action.raise.injEq] at h
      exact .inl ⟨cmd, .inl rfl, by simp [Decoded.instr?, hd], h.symm⟩
  | react cmd =>
    cases hd : decode cmd with
    | instr j =>
      cases j with
      | feed b =>
        simp only [inputAction, reactionAction, hd, Action.raise.injEq] at h
        exact .inr ⟨h.symm, .inr ⟨cmd, b, rfl, hd⟩⟩
      | enable p => simp [inputAction, reactionAction, hd] at h
      | disable => simp [inputAction, reactionAction, hd] at h
    | illegal w =>
      simp only [inputAction, reactionAction, hd, Action.raise.injEq] at h
      exact .inl ⟨cmd, .inr rfl, by simp [Decoded.instr?, hd], h.symm⟩

/-- Everything a step that answers a next state can have done: idled, reset the block, raised a model fault, or run ENABLE or
DISABLE (from the host or the consumer) or a FEED in its turn. An invariant of the step needs these six cases and no more. -/
theorem step_next_cases {s t : State} (h : step s = .next t) :
    (s.inputs = [] ∧ t = takeInput s) ∨
    (s.inputs.head? = some .reset ∧ t = resetBlock (takeInput s)) ∨
    (∃ inp r, s.inputs.head? = some inp ∧ inputAction inp = .raise r ∧ t = raise r (takeInput s)) ∨
    (∃ cmd p, (s.inputs.head? = some (.txn cmd) ∨ s.inputs.head? = some (.react cmd)) ∧
      decode cmd = .instr (.enable p) ∧ t = openPath p (takeInput s)) ∨
    (∃ cmd, (s.inputs.head? = some (.txn cmd) ∨ s.inputs.head? = some (.react cmd)) ∧
      decode cmd = .instr .disable ∧ t = closePath (takeInput s)) ∨
    (∃ cmd b, s.inputs.head? = some (.txn cmd) ∧ decode cmd = .instr (.feed b) ∧
      execFeed b (takeInput s) = .next t) := by
  obtain ⟨hi, h'⟩ | ⟨inp, rest, hi, ⟨rfl, h'⟩ | ⟨r, hr, h'⟩ | ⟨i, hr, h'⟩⟩ := step_cases s <;> rw [h'] at h
  · cases h; exact .inl ⟨hi, rfl⟩
  · cases h; exact .inr (.inl ⟨by rw [hi]; rfl, rfl⟩)
  · cases h; exact .inr (.inr (.inl ⟨inp, r, by rw [hi]; rfl, hr, rfl⟩))
  · refine .inr (.inr (.inr ?_))
    rcases inputAction_execute hr with ⟨cmd, rfl, hd⟩ | ⟨cmd, rfl, hd, hn⟩ <;> cases i with
    | enable p => cases h; exact .inl ⟨cmd, p, by simp [hi], hd, rfl⟩
    | disable => cases h; exact .inr (.inl ⟨cmd, by simp [hi], hd, rfl⟩)
    | feed b => first | exact absurd rfl (hn b) | exact .inr (.inr ⟨cmd, b, by simp [hi], hd, h⟩)

end Sys2Proof.Machine
end

