-- ==== Sys2Proof/Laws/Run.lean ====
section
/-! SUPPORT. Runs one input at a time (70_reset_and_hazards.md R139): what the first step adds to an observation. -/

namespace Sys2Proof.Machine

/-- Counting the steps from another number only shifts the indexes of the events. -/
theorem runFrom_shift (d n k : Nat) (s : State) :
    runFrom (n + d) k s = ((runFrom n k s).1.map fun p => (p.1 + d, p.2), (runFrom n k s).2) := by
  induction k generalizing n s with
  | zero => rfl
  | succ k ih =>
    cases h : step s with
    | next t =>
      have := ih (n + 1) t
      rw [Nat.add_right_comm] at this
      simp [runFrom, h, this]
    | fault r => simp [runFrom, h]
    | refused r => simp [runFrom, h]

/-- No input, no event. -/
theorem observe_nil (s : State) : observe [] s = ([], { s with inputs := [] }) := rfl

/-- The first input's step, then the rest, counted one later. -/
theorem observe_cons {inp : Input} {ins : List Input} {s t : State}
    (h : step { s with inputs := inp :: ins } = .next t) (ht : t.inputs = ins) :
    observe (inp :: ins) s =
      (t.event.toList.map (fun e => (0, e)) ++ (observe ins t).1.map (fun p => (p.1 + 1, p.2)), (observe ins t).2) := by
  have e : { t with inputs := ins } = t := by rw [← ht]
  have := runFrom_shift 1 0 ins.length t
  simp only [observe, List.length_cons, runFrom, h, e, this]

end Sys2Proof.Machine
end

