-- ==== Sys2Proof/Tests/Slice0.lean ====
section
/-! SUPPORT. The model's own tests: words written out from the encoding, one-step vectors of 95_test_vectors.md, the
well-formedness smoke tests, and one witness for each statement that has hypotheses (each shows a concrete state and operands
that meet all of them, at the boundary of each clause). -/

namespace Sys2Proof.Tests

open Sys2Proof.Machine

/-- The next state of an outcome. -/
def nextOf : Host.Outcome State Fault Refusal → Option State
  | .next s => some s
  | _ => none

/-- A buffer that holds these bytes from address 0. -/
def bufOf (bs : List Byte) : Memory := (bs.zipIdx.filter fun p => p.1 != 0).map fun p => (p.2, p.1)

/-- The reference frame F of 95_test_vectors.md. -/
def frameF : List Byte :=
  [0x42, 0x4D, 0x00, 0x1C, 0x00, 0x01, 0x00, 0x02, 0x00, 0x03, 0x00, 0x04, 0x00, 0x05, 0x00, 0x06] ++
    [0x00, 0x07, 0x00, 0x08, 0x00, 0x09, 0x00, 0x0A, 0x00, 0x0B, 0x00, 0x00, 0x00, 0x00, 0x00, 0xED]

/-- Enabled with a consumer, `k` bytes of F captured. -/
def captured (k : Nat) : State :=
  { State.reset with buf := bufOf (frameF.take k), off := BitVec.ofNat 6 k, inpkt := true, enabled := true,
                     sinkPresent := true }

/-- Parked: (1, 0), enabled with a consumer. -/
def parkedState : State := { captured 1 with inpkt := false }

/-- A state with these inputs waiting. -/
def waiting (s : State) (ins : List Input) : State := { s with inputs := ins }

/-! ### Words, and what is ill-formed -/

/-- `0000 bbbbbbbb`, `0001 0000000s`, `0010 00000000` (30_encoding.md R55). -/
theorem test_decode_bits :
    decode 0b000001000010 = .instr (.feed 0x42) ∧ decode 0b000010000001 = .instr (.feed 0x81) ∧
    decode 0b000100000001 = .instr (.enable true) ∧ decode 0b000100000000 = .instr (.enable false) ∧
    decode 0b001000000000 = .instr .disable := by decide

theorem test_encode_bits :
    encode (.feed 0x42) = 0b000001000010 ∧ encode (.enable true) = 0b000100000001 ∧
    encode (.enable false) = 0b000100000000 ∧ encode .disable = 0b001000000000 := by decide

/-- 95_test_vectors.md V-E5 to V-E7. -/
theorem test_decode_refuses :
    decode 0x102 = .illegal .enableBits ∧ decode 0x201 = .illegal .disableBits ∧
    decode 0x300 = .illegal .reservedOp ∧ decode 0xFFF = .illegal .reservedOp := by decide

/-- One ill-formed word for each case of R59, and a legal one for each row. -/
theorem test_wellformed_words :
    Cmd.legal 0x300 = false ∧ Cmd.legal 0x102 = false ∧ Cmd.legal 0x180 = false ∧ Cmd.legal 0x201 = false ∧
    Cmd.legal 0x0FF = true ∧ Cmd.legal 0x101 = true ∧ Cmd.legal 0x200 = true := by decide

/-- A run begins with a reset and holds no other (70_reset_and_hazards.md R139). -/
theorem test_wellformed_runs :
    isRun [.txn 0x101] = false ∧ isRun [] = false ∧ isRun [.reset, .txn 0x101, .reset] = false ∧
    isRun [.reset, .txn 0x101] = true := by decide

/-- A buffer out of order, one with a listed zero, and one past the end are not canonical. -/
theorem test_wellformed_buffers :
    ¬ Memory.wf [(2, 1), (1, 1)] ∧ ¬ Memory.wf [(1, 0)] ∧ ¬ Memory.wf [(32, 1)] ∧ (captured 32).buf.wf := by decide

theorem test_decodeTableWord :
    decodeTableWord 16 0x000 = some (.feed 0) ∧ decodeTableWord 16 0x100 = some (.enable false) ∧
    decodeTableWord 16 0x200 = some .disable ∧ decodeTableWord 16 0x1000 = none := by decide

theorem test_first_instruction_after_reset :
    (nextOf (step (State.reset.withFetchWord 16 0x101))).map (fun s => (s.enabled, s.sinkPresent)) =
      some (true, true) := by decide

/-! ### One step: the spec's vectors -/

/-- V-A16. -/
theorem test_feed_delivers :
    (nextOf (exec (.feed 0xED) (captured 31))).map (fun s => (s.off, s.event)) =
      some (32, some (.record ⟨1, 2, 3, 4, 5, 6, 7, 8, 9, 10, 11, 0⟩)) := by decide

/-- V-A17: step 1 before step 2. -/
theorem test_feed_double_marker :
    (nextOf (exec (.feed 0x42) (captured 1))).map (fun s => (s.off, s.inpkt, s.event)) =
      some (1, true, none) := by decide

/-- V-L2. -/
theorem test_enable_nosink :
    nextOf (exec (.enable false) (captured 10)) = some { captured 10 with sinkPresent := false } := by decide

/-- V-L3. -/
theorem test_disable :
    nextOf (exec .disable (captured 10)) = some { captured 10 with enabled := false, sinkPresent := false } := by
  decide

/-- V-E5 and V-E8: an illegal word sets the mark; a FEED after it runs, and the mark stays. -/
theorem test_illegal_word :
    (nextOf (step (waiting (captured 1) [.txn 0x102]))).map (fun s => (s.off, s.fault)) =
      some (1, some (.illegalCommand 0x102)) ∧
    (nextOf (step (waiting { captured 1 with fault := some (.illegalCommand 0x102) } [.txn 0x04D]))).map
      (fun s => (s.off, s.fault)) = some (2, some (.illegalCommand 0x102)) := by decide

/-- `FEED 0x42 ; x` is the word 0x042, and `ENABLE nosink` 0x100 (30_encoding.md R61). -/
theorem test_assemble :
    assemble (['F', 'E', 'E', 'D', ' ', '0', 'x', '4', '2', ' ', ';', ' ', 'x', '\n'] ++
      ['E', 'N', 'A', 'B', 'L', 'E', ' ', 'n', 'o', 's', 'i', 'n', 'k']) = some [.txn 0x042, .txn 0x100] := by decide

/-- FRAME 1 2 ... 11 0 writes F (95_test_vectors.md §3, P1). -/
theorem test_frame_bytes : frameBytes { values := ⟨1, 2, 3, 4, 5, 6, 7, 8, 9, 10, 11, 0⟩ } = frameF := by decide

/-! ### Witnesses of the statements' hypotheses -/

theorem test_witness_ResetInputResetsEveryElement :
    (waiting (captured 5) [.reset, .txn 0x101]).inputs = .reset :: [.txn 0x101] := rfl

theorem test_witness_IdleStepOnlyDropsTheEvent : (captured 5).inputs = [] := rfl

theorem test_witness_StepRunsTheDecodedInstruction :
    (waiting (captured 5) [.txn 0x007, .reset]).inputs = .txn 0x007 :: [.reset] ∧
    decode 0x007 = .instr (.feed 7) := by decide

theorem test_witness_PresentedWordRunsNext : 12 ≤ 12 ∧ decode 0x200 = .instr .disable := by decide

theorem test_witness_DecodeOfEncode : (Instr.feed 0xFF).wf = true ∧ (Instr.enable true).wf = true ∧
    Instr.disable.wf = true := by decide

theorem test_witness_EncodeOfDecode : decode 0x0FF = .instr (.feed 0xFF) := by decide

theorem test_witness_IllegalWordsRaiseIllegalCommand :
    (waiting (captured 5) [.txn 0x300]).inputs = .txn 0x300 :: [] ∧ (decode 0x300).instr? = none := by decide

theorem test_witness_OutputEventsAsEncodedAndNotHeld :
    (Record.toList ⟨1, 2, 3, 4, 5, 6, 7, 8, 9, 10, 11, 12⟩)[0]? = some 1 ∧
    (Record.toList ⟨1, 2, 3, 4, 5, 6, 7, 8, 9, 10, 11, 12⟩)[11]? = some 12 := by decide

theorem test_witness_OverlapRaisesReentrantAccess :
    (waiting (captured 5) [.overlap 0x200]).inputs = .overlap 0x200 :: [] ∧
    (waiting (captured 5) [.react 0x042]).inputs = .react 0x042 :: [] ∧
    decode 0x042 = .instr (.feed 0x42) := by decide

theorem test_witness_ConsumerReactionIsTheNextStep :
    (waiting (captured 32) [.react 0x200]).inputs = .react 0x200 :: [] ∧ decode 0x200 = .instr .disable ∧
    (∀ b, Instr.disable ≠ .feed b) ∧ (waiting (captured 32) [.react 0x102]).inputs = .react 0x102 :: [] ∧
    (decode 0x102).instr? = none := ⟨rfl, by decide, fun _ => nofun, rfl, by decide⟩

theorem test_witness_FaultMarkIsSticky :
    (∃ t, step (waiting { captured 1 with fault := some .reentrantAccess } [.txn 0x042]) = .next t ∧
      (waiting { captured 1 with fault := some .reentrantAccess } [.txn 0x042]).fault = some .reentrantAccess ∧
      (waiting { captured 1 with fault := some .reentrantAccess } [.txn 0x042]).inputs.head? ≠ some .reset) ∧
    (∃ t, step (waiting { captured 1 with fault := some .reentrantAccess } [.reset]) = .next t ∧
      (waiting { captured 1 with fault := some .reentrantAccess } [.reset]).inputs.head? = some .reset) ∧
    (∃ t, step (waiting (captured 1) [.txn 0xFFF]) = .next t ∧ (waiting (captured 1) [.txn 0xFFF]).fault = none ∧
      t.fault = some (.illegalCommand 0xFFF)) ∧
    ∃ t, step (waiting (captured 1) [.react 0x000]) = .next t ∧ (waiting (captured 1) [.react 0x000]).fault = none ∧
      t.fault = some .reentrantAccess :=
  ⟨⟨_, rfl, rfl, by decide⟩, ⟨_, rfl, rfl⟩, ⟨_, rfl, rfl, by decide⟩, ⟨_, rfl, rfl, by decide⟩⟩

theorem test_witness_FeedWhileDisabledHasNoEffect : State.reset.enabled = false := rfl

theorem test_witness_FeedMarkerBeginsACapture : (captured 32).enabled = true := rfl

theorem test_witness_FeedFailedSecondByte :
    parkedState.enabled = true ∧ parkedState.off = 1#6 ∧ (0x43 : Byte) ≠ 0x42#8 ∧ (0x43 : Byte) ≠ 0x4D#8 := by decide

/-- The clauses at `off` 0, 1, 30, 31, 32 and in the parked state. -/
theorem test_witness_FeedStoresWhileCapturing :
    (captured 32).enabled = true ∧ (0x4D : Byte) ≠ 0x42#8 ∧ ¬ ((captured 1).off = 1#6 ∧ (0x4D : Byte) ≠ 0x4D#8) ∧
    (captured 1).off < 31#6 ∧ ¬ ((captured 30).off = 1#6 ∧ (0x00 : Byte) ≠ 0x4D#8) ∧ (captured 30).inpkt = true ∧
    (captured 30).off < 31#6 ∧ (captured 31).off = 31#6 ∧ 32#6 ≤ (captured 32).off ∧
    ¬ ((captured 32).off = 1#6 ∧ (0x00 : Byte) ≠ 0x4D#8) ∧ parkedState.inpkt = false ∧
    ¬ (parkedState.off = 1#6 ∧ (0x4D : Byte) ≠ 0x4D#8) ∧ State.reset.inpkt = false ∧
    ¬ (State.reset.off = 1#6 ∧ (0x00 : Byte) ≠ 0x4D#8) := by decide

theorem test_witness_FeedCompletesACandidate :
    (captured 31).enabled = true ∧ (captured 31).inpkt = true ∧ (captured 31).off = 31#6 ∧
    (0xED : Byte) ≠ 0x42#8 := by decide

theorem test_witness_FeedIgnoredByteChangesNothing :
    parkedState.enabled = true ∧ (0x10 : Byte) ≠ 0x42#8 ∧ (∃ t, exec (.feed 0x10) parkedState = .next t) ∧
    (parkedState.inpkt = false ∧ parkedState.off = 1#6) ∧ (∃ t, exec (.feed 0x10) (captured 32) = .next t) ∧
    (captured 32).off = 32#6 :=
  ⟨rfl, by decide, ⟨_, rfl⟩, ⟨rfl, rfl⟩, ⟨_, rfl⟩, rfl⟩

theorem test_witness_FeedFrame :
    (∃ t, exec (.feed 0x07) (captured 31) = .next t) ∧ feedSlot 0x07 (captured 31) = some 31#5 ∧
    feedSlot 0x42 (captured 31) = some 0#5 ∧ feedSlot 0x07 (captured 32) = none :=
  ⟨⟨_, rfl⟩, by decide, by decide, by decide⟩

theorem test_witness_ByteClassSelectsTheSecondByteCase :
    (captured 1).enabled = true ∧ (captured 1).off = 1#6 ∧ (captured 1).inpkt = true ∧ byteClass 0x42 = .marker1 ∧
    byteClass 0x4D = .marker2 ∧ byteClass 0x4C = .data := by decide

theorem test_witness_DiagnosticsExactlyWhenTheirConditionHolds :
    (nextOf (exec (.feed 0x10) parkedState)).map (·.event) = some (some (.diag .desync)) ∧
    (nextOf (exec (.feed 0xED) { captured 31 with buf := (captured 31).buf.write 3 0x1D })).map (·.event) =
      some (some (.diag .lenMismatch)) ∧
    (nextOf (exec (.feed 0xEE) (captured 31))).map (·.event) = some (some (.diag .cksumMismatch)) := by decide

theorem test_witness_RecordsOnlyFromValidatedFrames :
    ∃ t, step (waiting (captured 31) [.txn 0x0ED]) = .next t ∧
      t.event = some (.record ⟨1, 2, 3, 4, 5, 6, 7, 8, 9, 10, 11, 0⟩) := ⟨_, rfl, by decide⟩

theorem test_witness_LifecycleFrame :
    (∃ t, exec (.enable true) (captured 7) = .next t) ∧ (∀ b, Instr.enable true ≠ .feed b) ∧
    (∃ t, exec .disable (captured 7) = .next t) ∧ ∀ b, Instr.disable ≠ .feed b :=
  ⟨⟨_, rfl⟩, fun _ => nofun, ⟨_, rfl⟩, fun _ => nofun⟩

theorem test_witness_LifecycleIsIdempotentAndFeedIsNot :
    ∃ t, exec .disable (captured 7) = .next t ∧ ∀ b, Instr.disable ≠ .feed b := ⟨_, rfl, fun _ => nofun⟩

theorem test_witness_InpktWrittenOnlyByFeed :
    (∃ t, step (waiting parkedState [.txn 0x042]) = .next t ∧ (waiting parkedState [.txn 0x042]).inpkt = false ∧
      t.inpkt = true) ∧
    ∃ t, step (waiting (captured 1) [.txn 0x000]) = .next t ∧ (waiting (captured 1) [.txn 0x000]).inpkt = true ∧
      t.inpkt = false := ⟨⟨_, rfl, rfl, by decide⟩, ⟨_, rfl, rfl, by decide⟩⟩

/-- The last byte of a candidate, a 0x42 mid-frame, and reset. -/
theorem test_witness_OffsetMovesOnlyByCapture :
    (∃ t, step (waiting (captured 31) [.txn 0x000]) = .next t ∧ t.off ≠ (waiting (captured 31) [.txn 0x000]).off) ∧
    (∃ t, step (waiting (captured 9) [.txn 0x042]) = .next t ∧ t.off ≠ (waiting (captured 9) [.txn 0x042]).off) ∧
    ∃ t, step (waiting (captured 1) [.reset]) = .next t ∧ t.off ≠ (waiting (captured 1) [.reset]).off :=
  ⟨⟨_, rfl, by decide⟩, ⟨_, rfl, by decide⟩, _, rfl, by decide⟩

theorem test_witness_PathBitsWrittenOnlyByLifecycle :
    ∃ t, step (waiting (captured 3) [.react 0x200]) = .next t ∧
      (t.enabled ≠ (waiting (captured 3) [.react 0x200]).enabled ∨
        t.sinkPresent ≠ (waiting (captured 3) [.react 0x200]).sinkPresent) := ⟨_, rfl, by decide⟩

theorem test_witness_invariants_kept :
    (captured 31).assemblyInv ∧ (captured 31).captureInv ∧ (captured 31).buf.wf ∧ (captured 32).assemblyInv ∧
    parkedState.assemblyInv ∧ parkedState.captureInv ∧
    ∃ t, step (waiting (captured 31) [.txn 0x0ED]) = .next t :=
  ⟨by decide, by decide, by decide, by decide, by decide, by decide, _, rfl⟩

theorem test_witness_BuffersThatReadAlikeAreEqual :
    Memory.wf [(0, 0x42)] ∧ Memory.wf (Memory.write [] 0 0x42) ∧
    ∀ a : Addr, Memory.read [(0, 0x42)] a = (Memory.write [] 0 0x42).read a := by decide

theorem test_witness_StaleBytesAreUnobservable :
    (captured 3).sameButStale { captured 3 with buf := (captured 3).buf.write 3 0x55 } ∧
    (captured 3).buf ≠ (captured 3).buf.write 3 0x55 := by
  unfold State.sameButStale
  decide

theorem test_witness_CandidateSumIsBounded :
    (captured 32).captureInv ∧ (captured 32).off = 32#6 ∧ lengthField (captured 32).buf = 28#16 := by decide

theorem test_witness_DecodeReadsTheFieldTable :
    ∀ a : Addr, 4 ≤ a.toNat → a.toNat ≤ 27 →
      (captured 32).buf.read a = ((captured 32).buf.write 28 0x12).read a := by decide

theorem test_witness_CompleteWritesNoState :
    (∀ a : Addr, (captured 32).buf.read a = (captured 32).buf.read a) ∧
    (captured 32).sinkPresent = { captured 32 with off := 5#6 }.sinkPresent ∧
    (captured 32).event = { captured 32 with off := 5#6 }.event := ⟨fun _ => rfl, rfl, rfl⟩

theorem test_witness_frames :
    frameF.length = 32 ∧ (captured 9).enabled = true ∧ (captured 9).sinkPresent = true ∧
    frameF.getD 0 0#8 = 0x42#8 ∧ frameF.getD 1 0#8 = 0x4D#8 ∧ (∀ i, 1 ≤ i → i < 32 → frameF.getD i 0#8 ≠ 0x42#8) ∧
    be16 (frameF.getD 2 0#8) (frameF.getD 3 0#8) = 28#16 ∧
    listSum (frameF.take 30) % 65536 = (frameF.getD 30 0#8).toNat * 256 + (frameF.getD 31 0#8).toNat := by
  refine ⟨by decide, rfl, rfl, by decide, by decide, fun i _ h => ?_, by decide, by decide⟩
  have : ∀ i : Fin 32, i.val = 0 ∨ frameF.getD i.val 0#8 ≠ 0x42#8 := by decide
  rcases this ⟨i, h⟩ with h' | h' <;> simp_all

theorem test_witness_WrongFrameYieldsExactlyOneDiagnostic :
    be16 ((frameF.set 3 0x1D).getD 2 0#8) ((frameF.set 3 0x1D).getD 3 0#8) ≠ 28#16 ∧
    be16 ((frameF.set 31 0xEE).getD 2 0#8) ((frameF.set 31 0xEE).getD 3 0#8) = 28#16 ∧
    listSum ((frameF.set 31 0xEE).take 30) % 65536 ≠
      ((frameF.set 31 0xEE).getD 30 0#8).toNat * 256 + ((frameF.set 31 0xEE).getD 31 0#8).toNat ∧
    (∀ i : Fin 32, i.val = 0 ∨ (frameF.set 3 0x1D).getD i.val 0#8 ≠ 0x42#8) ∧
    (∀ i : Fin 32, i.val = 0 ∨ (frameF.set 31 0xEE).getD i.val 0#8 ≠ 0x42#8) := by decide

theorem test_witness_WrittenFrameIsReadBack :
    (captured 9).enabled = true ∧ (captured 9).sinkPresent = true ∧
    0x42#8 ∉ (frameBytes { values := ⟨1, 2, 3, 4, 5, 6, 7, 8, 9, 10, 11, 0⟩, res := 0x1234 }).tail := by decide

theorem test_witness_TruncatedFrameIsSilent :
    1 ≤ (frameF.take 31).length ∧ (frameF.take 31).length ≤ 31 ∧ (captured 9).enabled = true ∧
    (frameF.take 31).getD 0 0#8 = 0x42#8 ∧ (frameF.take 31).getD 1 0#8 = 0x4D#8 ∧
    (∀ i : Fin 31, i.val = 0 ∨ (frameF.take 31).getD i.val 0#8 ≠ 0x42#8) ∧
    [0x42#8].length = 1 ∧ [0x42#8].getD 0 0#8 = 0x42#8 := by decide

theorem test_witness_InteriorMarkerLosesTheFrame :
    (frameF.set 31 0x42).length = 32 ∧ (captured 9).enabled = true ∧ (frameF.set 31 0x42).getD 0 0#8 = 0x42#8 ∧
    1 ≤ 31 ∧ 31 < 32 ∧ (frameF.set 31 0x42).getD 31 0#8 = 0x42#8 ∧ (frameF.set 1 0x42).getD 1 0#8 = 0x42#8 ∧
    1 ≤ 1 ∧ 32 ≤ 32 ∧ ((frameF.set 31 0x42).take 32).length = 32 := by decide

theorem test_witness_ParkedBytesReemitDesync :
    parkedState.enabled = true ∧ parkedState.parked ∧ 0x42#8 ∉ ([0x10, 0x4D, 0x11] : List Byte) := by decide

theorem test_witness_NothingFollowsACandidateButAMarker :
    (captured 32).enabled = true ∧ (captured 32).off = 32#6 ∧ 0x42#8 ∉ ([0x00, 0x4D, 0xFF] : List Byte) := by decide

/-- FEEDs and a DISABLE before the ENABLE, and 31 FEEDs after it: the boundary of "fewer than 32". -/
theorem test_witness_FirstRecordNeedsThirtyTwoFeeds :
    (∀ i ∈ feedInputs (frameF.take 5) ++ [Input.txn 0x200], opensPath i = false) ∧
    opensPath (.txn 0x101) = true ∧ opensPath (.react 0x100) = true ∧
    (feedInputs (frameF.take 31)).countP isFeedWord = 31 := by decide

theorem test_witness_FrameWritesTheWireLayout :
    (Record.toList ⟨1, 2, 3, 4, 5, 6, 7, 8, 9, 10, 11, 0⟩)[11]? = some 0 := by decide

/-- The sink that logs everything at once. -/
theorem test_witness_LoggedCodesComeFromTheirErrors :
    (DiagSink.mk Eq fun _ _ h => h ▸ List.Sublist.refl _).logs
      (diagCodes (observe [.txn 0x000] parkedState).1) [.desync] := by
  show diagCodes (observe [.txn 0x000] parkedState).1 = [.desync]
  decide

/-- The condition of each error class, at the byte that decides it: 0xEE where F's checksum ends in 0xED, and F with a wrong
declared length. -/
theorem test_witness_conditions :
    DiagCode.desync.condition 0x43 parkedState ∧ ¬ DiagCode.desync.condition 0x4D parkedState ∧
    DiagCode.cksumMismatch.condition 0xEE (captured 31) ∧ ¬ DiagCode.cksumMismatch.condition 0xED (captured 31) ∧
    DiagCode.lenMismatch.condition 0xED { captured 31 with buf := (captured 31).buf.write 3 0x1D } := by
  simp only [DiagCode.condition]
  decide

/-- One step for each clause: `off` from 31 to 32 with a record, 0x42 at `off = 32`, and reset, where `off` falls. -/
theorem test_witness_OffsetRisesByOneAndARecordNeedsThirtyOne :
    (∃ t, step (waiting (captured 31) [.txn 0x0ED]) = .next t ∧ (captured 31).off < t.off ∧
      t.event = some (.record ⟨1, 2, 3, 4, 5, 6, 7, 8, 9, 10, 11, 0⟩)) ∧
    (∃ t, step (waiting (captured 32) [.txn 0x042]) = .next t ∧ (captured 32).enabled = true ∧
      (waiting (captured 32) [.txn 0x042]).inputs.head? = some (.txn 0x042) ∧ decode 0x042 = .instr (.feed 0x42#8)) ∧
    ∃ t, step (waiting (captured 32) [.reset]) = .next t ∧ t.off = 0#6 :=
  ⟨⟨_, rfl, by decide, by decide⟩, ⟨_, rfl, rfl, rfl, by decide⟩, _, rfl, rfl⟩

end Sys2Proof.Tests
end

section
/-! The values of the state right after reset (10_state.md R23 to R26 and R28), one law per field that the spec gives a
value, in the form of the laws of the state's updates. -/

namespace Sys2Proof.Machine

@[simp] theorem State.reset_off : State.reset.off = 0#6 := rfl
@[simp] theorem State.reset_inpkt : State.reset.inpkt = false := rfl
@[simp] theorem State.reset_enabled : State.reset.enabled = false := rfl
@[simp] theorem State.reset_sinkPresent : State.reset.sinkPresent = false := rfl
@[simp] theorem State.reset_fault : State.reset.fault = none := rfl

/-- Settles O1, field by field. -/
theorem resetLeavesTheResetValues : Obligations.ResetLeavesTheResetValues :=
  ⟨State.reset_off, State.reset_inpkt, State.reset_enabled, State.reset_sinkPresent, State.reset_fault⟩

end Sys2Proof.Machine
end

section
/-! The fields of a transaction word (30_encoding.md R55 to R57): the six branches of the decoder said once, the parts of a
word, and the equations between words that fix a part. -/

namespace Sys2Proof

/-- A stretch of a word is two given parts put together exactly when it splits into them. -/
theorem extractLsb'_eq_append_iff {n w v : Nat} {x : BitVec n} {start : Nat} {hi : BitVec w} {lo : BitVec v} :
    x.extractLsb' start (w + v) = hi ++ lo ↔
      x.extractLsb' (start + v) w = hi ∧ x.extractLsb' start v = lo := by
  rw [← BitVec.extractLsb'_append_extractLsb'_eq_extractLsb' rfl]
  refine ⟨fun h => ⟨?_, ?_⟩, fun ⟨hhi, hlo⟩ => by rw [hhi, hlo]⟩
  · simpa only [BitVec.extractLsb'_append_eq_left] using congrArg (·.extractLsb' v w) h
  · simpa only [BitVec.extractLsb'_append_eq_right] using congrArg (·.extractLsb' 0 v) h

/-- A mask that keeps the high part compares that part alone. -/
theorem and_highMask_eq_iff {w v : Nat} {x : BitVec (w + v)} {hi : BitVec w} :
    x &&& (BitVec.allOnes w ++ 0#v) = hi ++ 0#v ↔ x.extractLsb' v w = hi := by
  rw [← BitVec.extractLsb'_append_extractLsb' (x := x), BitVec.and_append, BitVec.and_allOnes, BitVec.and_zero,
    BitVec.append_left_inj, BitVec.extractLsb'_append_eq_left]

/-- `op = 0001` and `cmd[7:1] = 0` together fix the upper eleven bits of an ENABLE word (R57). -/
theorem Cmd.upper_eq_iff {cmd : Cmd} :
    cmd.extractLsb' 1 11 = 0x080#11 ↔ Cmd.op cmd = 1#4 ∧ cmd.extractLsb' 1 7 = 0#7 :=
  extractLsb'_eq_append_iff (hi := 1#4) (lo := 0#7)

/-- The DISABLE word is the one with `op = 0010` and `data = 0` (R57). -/
theorem Cmd.eq_disable_iff {cmd : Cmd} : cmd = 0x200#12 ↔ Cmd.op cmd = 2#4 ∧ Cmd.data cmd = 0#8 := by
  have h := extractLsb'_eq_append_iff (x := cmd) (start := 0) (hi := 2#4) (lo := 0#8)
  rwa [BitVec.extractLsb'_eq_self] at h

/-- Every branch of the decoder, with what it answers (R55 to R57, R59). -/
theorem decode_cases (cmd : Cmd) :
    (Cmd.op cmd = 0#4 ∧ decode cmd = .instr (.feed (Cmd.data cmd))) ∨
    (Cmd.op cmd = 1#4 ∧ cmd.extractLsb' 1 7 = 0#7 ∧ decode cmd = .instr (.enable (cmd.getLsbD 0))) ∨
    (Cmd.op cmd = 1#4 ∧ cmd.extractLsb' 1 7 ≠ 0#7 ∧ decode cmd = .illegal .enableBits) ∨
    (Cmd.op cmd = 2#4 ∧ Cmd.data cmd = 0#8 ∧ decode cmd = .instr .disable) ∨
    (Cmd.op cmd = 2#4 ∧ Cmd.data cmd ≠ 0#8 ∧ decode cmd = .illegal .disableBits) ∨
    (Cmd.op cmd ≠ 0#4 ∧ Cmd.op cmd ≠ 1#4 ∧ Cmd.op cmd ≠ 2#4 ∧ decode cmd = .illegal .reservedOp) := by
  unfold decode
  split_ifs with h0 h1 henable h2 hdisable
  · exact .inl ⟨h0, rfl⟩
  · exact .inr (.inl ⟨h1, henable, rfl⟩)
  · exact .inr (.inr (.inl ⟨h1, henable, rfl⟩))
  · exact .inr (.inr (.inr (.inl ⟨h2, hdisable, rfl⟩)))
  · exact .inr (.inr (.inr (.inr (.inl ⟨h2, hdisable, rfl⟩))))
  · exact .inr (.inr (.inr (.inr (.inr ⟨h0, h1, h2, rfl⟩))))

/-- R56: FEED is `op = 0000`, and its operand is `data`. -/
theorem decode_eq_feed_iff {cmd : Cmd} {b : Byte} :
    decode cmd = .instr (.feed b) ↔ Cmd.op cmd = 0#4 ∧ b = Cmd.data cmd := by
  obtain h | h | h | h | h | h := decode_cases cmd <;> simp [h, eq_comm (a := b)]

/-- R57: ENABLE is `op = 0001` with `cmd[7:1] = 0`, and its operand is `cmd[0]`. -/
theorem decode_eq_enable_iff {cmd : Cmd} {p : Bool} :
    decode cmd = .instr (.enable p) ↔ Cmd.op cmd = 1#4 ∧ cmd.extractLsb' 1 7 = 0#7 ∧ p = cmd.getLsbD 0 := by
  obtain h | h | h | h | h | h := decode_cases cmd <;> simp [h, eq_comm (a := p)]

/-- R57: DISABLE is `op = 0010` with `data = 0`. -/
theorem decode_eq_disable_iff {cmd : Cmd} :
    decode cmd = .instr .disable ↔ Cmd.op cmd = 2#4 ∧ Cmd.data cmd = 0#8 := by
  obtain h | h | h | h | h | h := decode_cases cmd <;> simp [h]

/-- Settles O9, row by row of the opcode table. -/
theorem decoderReadsTheFields : Obligations.DecoderReadsTheFields := fun _ =>
  ⟨fun _ => decode_eq_feed_iff, fun _ => decode_eq_enable_iff, decode_eq_disable_iff.trans Cmd.eq_disable_iff.symm⟩

end Sys2Proof
end

section
/-! Illegal words (30_encoding.md R59): which they are, by their fields, by the table's rows and by number; how many; and what
a step does with one (60_exceptions.md R117). -/

namespace Sys2Proof

/-- The reserved values of `op` are 0011 to 1111 (R59). -/
theorem three_le_op_iff {op : BitVec 4} : 3#4 ≤ op ↔ op ≠ 0#4 ∧ op ≠ 1#4 ∧ op ≠ 2#4 := by
  bv_omega

/-- The three cases of R59. -/
theorem decode_illegal_iff {cmd : Cmd} :
    (decode cmd).instr? = none ↔
      3#4 ≤ Cmd.op cmd ∨ (Cmd.op cmd = 1#4 ∧ cmd.extractLsb' 1 7 ≠ 0#7) ∨
        (Cmd.op cmd = 2#4 ∧ Cmd.data cmd ≠ 0#8) := by
  rw [three_le_op_iff]
  obtain h | h | h | h | h | h := decode_cases cmd <;> simp [h, Decoded.instr?]

/-- A word meets a row of the opcode table exactly where it has that row's fields (R55). -/
theorem Cmd.legal_iff {cmd : Cmd} :
    Cmd.legal cmd = true ↔ Cmd.op cmd = 0#4 ∨ (Cmd.op cmd = 1#4 ∧ cmd.extractLsb' 1 7 = 0#7) ∨
      (Cmd.op cmd = 2#4 ∧ Cmd.data cmd = 0#8) := by
  have hfeed : cmd &&& 0xF00 = 0x000 ↔ Cmd.op cmd = 0#4 := and_highMask_eq_iff (w := 4) (v := 8) (hi := 0#4)
  have henable : cmd &&& 0xFFE = 0x100 ↔ cmd.extractLsb' 1 11 = 0x080#11 :=
    and_highMask_eq_iff (w := 11) (v := 1) (hi := 0x080#11)
  have hdisable : cmd &&& 0xFFF = 0x200 ↔ cmd = 0x200#12 := iff_of_eq (congrArg (· = _) BitVec.and_allOnes)
  rw [← Cmd.upper_eq_iff, ← Cmd.eq_disable_iff, ← hfeed, ← henable, ← hdisable]
  simp [Cmd.legal, tableRows]

/-- The illegal words are exactly those outside the three match and mask rows (R59). -/
theorem decode_illegal_iff_not_legal {cmd : Cmd} : (decode cmd).instr? = none ↔ Cmd.legal cmd = false := by
  rw [← Bool.not_eq_true, Cmd.legal_iff]
  obtain h | h | h | h | h | h := decode_cases cmd <;> simp [h, Decoded.instr?]

/-- By number, the legal words are 0x000 to 0x101 and 0x200. -/
theorem decode_illegal_iff_toNat {cmd : Cmd} :
    (decode cmd).instr? = none ↔ 258 ≤ cmd.toNat ∧ cmd.toNat ≠ 512 := by
  rw [decode_illegal_iff]
  have hlt := cmd.isLt
  simp only [Cmd.op, Cmd.data, BitVec.le_def, ne_eq, ← BitVec.toNat_inj, BitVec.extractLsb'_toNat,
    BitVec.toNat_ofNat, Nat.shiftRight_eq_div_pow]
  omega

/-- A stretch of numbers that all meet a test counts in full. -/
theorem countP_range'_of_forall {p : Nat → Bool} {a n : Nat} (h : ∀ k, a ≤ k → k < a + n → p k = true) :
    (List.range' a n).countP p = n := by
  rw [List.countP_eq_length.2, List.length_range']
  intro k hk
  obtain ⟨hlo, hhi⟩ := List.mem_range'_1.1 hk
  exact h k hlo hhi

/-- A stretch of numbers of which none meets a test adds nothing to the count. -/
theorem countP_range'_of_forall_not {p : Nat → Bool} {a n : Nat} (h : ∀ k, a ≤ k → k < a + n → p k = false) :
    (List.range' a n).countP p = 0 := by
  rw [List.countP_eq_zero]
  intro k hk
  obtain ⟨hlo, hhi⟩ := List.mem_range'_1.1 hk
  simp [h k hlo hhi]

/-- Of the words from 0x000 on: 258 legal, 254 illegal, one legal, 3583 illegal (R59: 3837 illegal words). -/
theorem countP_illegal : (List.range 4096).countP (fun n => (decode (BitVec.ofNat 12 n)).instr?.isNone) = 3837 := by
  have hword : ∀ n < 4096, (decode (BitVec.ofNat 12 n)).instr?.isNone = decide (258 ≤ n ∧ n ≠ 512) := by
    intro n hn
    have h := decode_illegal_iff_toNat (cmd := BitVec.ofNat 12 n)
    rw [BitVec.toNat_ofNat, Nat.mod_eq_of_lt hn] at h
    rw [Bool.eq_iff_iff, Option.isNone_iff_eq_none, h, decide_eq_true_iff]
  have hsplit : List.range 4096 =
      List.range' 0 258 ++ List.range' 258 254 ++ List.range' 512 1 ++ List.range' 513 3583 := by
    rw [List.range_eq_range', List.range'_append_1, List.range'_append_1, List.range'_append_1]
  rw [hsplit, List.countP_append, List.countP_append, List.countP_append]
  rw [countP_range'_of_forall_not, countP_range'_of_forall, countP_range'_of_forall_not, countP_range'_of_forall]
  all_goals
    intro k hlo hhi
    rw [hword k (by omega)]
    simp only [decide_eq_true_iff, decide_eq_false_iff_not]
    omega

end Sys2Proof

namespace Sys2Proof.Machine

/-- An illegal word in its turn asks for `raise IllegalCommand(cmd)` (R59). -/
theorem inputAction_txn_of_illegal {cmd : Cmd} (h : (decode cmd).instr? = none) :
    inputAction (.txn cmd) = .raise (.illegalCommand cmd) := by
  cases hd : decode cmd with
  | instr i => simp [hd, Decoded.instr?] at h
  | illegal why => simp [inputAction, wordAction, hd]

/-- A step that raises takes the input and sets the mark if it is clear; nothing else changes (R117). -/
theorem step_of_raise {s : State} {inp : Input} {rest : List Input} {r : FaultReason}
    (hin : s.inputs = inp :: rest) (ha : inputAction inp = .raise r) :
    step s = .next { s with event := none, inputs := rest, fault := some (s.fault.getD r) } := by
  simp [step, nextAction, hin, ha, raise, takeInput, quiet]

/-- Settles O10: the fields, the rows, the count and the raise. -/
theorem illegalWordsRaiseIllegalCommand : Obligations.IllegalWordsRaiseIllegalCommand :=
  ⟨fun _ => decode_illegal_iff, fun _ => decode_illegal_iff_not_legal, countP_illegal,
    fun _ _ _ hin hd => step_of_raise hin (inputAction_txn_of_illegal hd)⟩

end Sys2Proof.Machine
end

section
/-! The output events (30_encoding.md R58): the 192-bit record word taken apart, and that a step does not see the event of
the step before. -/

namespace Sys2Proof.Machine

/-- Put one field below those before it, as the record word is built (R58). -/
def pushField (above : Nat) (v : Half) : Nat := above * 65536 + v.toNat

/-- The record word is its fields pushed in order. -/
theorem Record.toBits_eq (r : Record) : r.toBits = BitVec.ofNat 192 (r.toList.foldl pushField 0) := rfl

/-- A field pushed leaves what stood above it. -/
theorem pushField_div (above : Nat) (v : Half) : pushField above v / 65536 = above := by
  have := v.isLt
  unfold pushField
  omega

/-- The field pushed last stands at the bottom. -/
theorem pushField_mod (above : Nat) (v : Half) : pushField above v % 65536 = v.toNat := by
  have := v.isLt
  unfold pushField
  omega

/-- Fields pushed leave what stood above them. -/
theorem foldl_pushField_div (vs : List Half) (above : Nat) :
    vs.foldl pushField above / 65536 ^ vs.length = above := by
  induction vs generalizing above with
  | nil => simp
  | cons v vs ih =>
    rw [List.foldl_cons, List.length_cons, Nat.pow_succ, ← Nat.div_div_eq_div_mul, ih, pushField_div]

/-- Field `k` of the pushed ones stands above the fields after it. -/
theorem foldl_pushField_field {vs : List Half} {k : Nat} {v : Half} (h : vs[k]? = some v) (above : Nat) :
    vs.foldl pushField above / 65536 ^ (vs.length - 1 - k) % 65536 = v.toNat := by
  induction vs generalizing above k with
  | nil => simp at h
  | cons w vs ih =>
    cases k with
    | zero =>
      obtain rfl : w = v := by simpa using h
      simp [foldl_pushField_div, pushField_mod]
    | succ k => simpa [Nat.sub_sub, Nat.add_comm] using ih h (pushField above w)

/-- The bits of a number below the width of the word that holds it. -/
theorem extractLsb'_ofNat_toNat {w start len n : Nat} (h : start + len ≤ w) :
    ((BitVec.ofNat w n).extractLsb' start len).toNat = n / 2 ^ start % 2 ^ len := by
  rw [BitVec.extractLsb'_toNat, BitVec.toNat_ofNat, Nat.shiftRight_eq_div_pow,
    ← Nat.add_sub_cancel' (Nat.le_of_add_right_le h), Nat.pow_add, Nat.mod_mul_right_div_self,
    Nat.mod_mod_of_dvd _ (Nat.pow_dvd_pow 2 (Nat.le_sub_of_add_le' h))]

@[simp] theorem Record.length_toList (r : Record) : r.toList.length = 12 := rfl

/-- Field `k` of the record word is bits `191 - 16k` down to `176 - 16k` (R58). -/
theorem Record.extractLsb'_toBits {r : Record} {k : Nat} {v : Half} (h : r.toList[k]? = some v) :
    r.toBits.extractLsb' (176 - 16 * k) 16 = v := by
  have hk : k < 12 := (List.getElem?_eq_some_iff.1 h).1
  apply BitVec.eq_of_toNat_eq
  rw [r.toBits_eq, extractLsb'_ofNat_toNat (by omega), show 176 - 16 * k = 16 * (12 - 1 - k) by omega, Nat.pow_mul]
  exact foldl_pushField_field h 0

/-- The codes are 01, 10 and 11 (R58). -/
theorem DiagCode.toBits_ne_zero (c : DiagCode) : c.toBits ≠ 0b00 := by
  cases c <;> decide

/-- Taking an input drops the event of the step before. -/
theorem takeInput_setEvent (s : State) (e : Option Event) : takeInput { s with event := e } = takeInput s := rfl

/-- What a step does is chosen by the inputs alone. -/
theorem nextAction_setEvent (s : State) (e : Option Event) : nextAction { s with event := e } = nextAction s := rfl

/-- No step depends on the event of the step before (R58). -/
theorem step_setEvent (s : State) (e : Option Event) : step { s with event := e } = step s := by
  simp only [step, nextAction_setEvent, takeInput_setEvent]

/-- Settles O12: the record word by its fields, the codes, and the event that no step sees. -/
theorem outputEventsAsEncodedAndNotHeld : Obligations.OutputEventsAsEncodedAndNotHeld :=
  ⟨fun _ _ _ => Record.extractLsb'_toBits, Record.length_toList, fun _ => ⟨rfl, rfl⟩, rfl, rfl, rfl,
    DiagCode.toBits_ne_zero, step_setEvent⟩

end Sys2Proof.Machine
end

section
/-! The wire frame that FRAME writes (30_encoding.md R63): after the two markers it is fifteen big-endian values in a row,
the length, the twelve fields, the reserved pair and the checksum. -/

namespace Sys2Proof.Machine

/-- The fifteen 16-bit values of the frame after its markers, in offset order (R45, R63). -/
def frameValues (f : FrameArgs) : List Half :=
  f.len :: f.values.toList ++ [f.res, f.ck.getD (BitVec.ofNat 16 (listSum (frameBody f)))]

/-- Reading back the two bytes a value is written as gives the value (R34). -/
theorem be16_beBytes (v : Half) : be16 (v.extractLsb' 8 8) (v.extractLsb' 0 8) = v :=
  BitVec.extractLsb'_append_extractLsb'

/-- Value `k` of those written one after the other is read back at offset `2k`. -/
theorem be16_flatMap_beBytes {vs : List Half} {k : Nat} {v : Half} (h : vs[k]? = some v) :
    be16 ((vs.flatMap beBytes).getD (2 * k) 0#8) ((vs.flatMap beBytes).getD (2 * k + 1) 0#8) = v := by
  induction vs generalizing k with
  | nil => simp at h
  | cons w vs ih =>
    cases k with
    | zero =>
      obtain rfl : w = v := by simpa using h
      exact be16_beBytes w
    | succ k => exact ih h

/-- The frame is the two markers and then its fifteen values (R63). -/
theorem frameBytes_eq (f : FrameArgs) :
    frameBytes f = Config.marker1 :: Config.marker2 :: (frameValues f).flatMap beBytes := by
  simp [frameBytes, frameBody, frameValues]

/-- Value `k` of the frame stands at offset `2 + 2k` (R45). -/
theorem be16_frameBytes {f : FrameArgs} {k : Nat} {v : Half} (h : (frameValues f)[k]? = some v) :
    be16 ((frameBytes f).getD (2 * k + 2) 0#8) ((frameBytes f).getD (2 * k + 3) 0#8) = v := by
  rw [frameBytes_eq]
  exact be16_flatMap_beBytes h

/-- The twelve fields come right after the length. -/
theorem frameValues_field {f : FrameArgs} {k : Nat} {v : Half} (h : f.values.toList[k]? = some v) :
    (frameValues f)[k + 1]? = some v := by
  have hk : k < f.values.toList.length := (List.getElem?_eq_some_iff.1 h).1
  simpa [frameValues, List.getElem?_append_left hk] using h

/-- Where the length, the reserved pair and the checksum stand among the fifteen values. -/
theorem frameValues_len (f : FrameArgs) : (frameValues f)[0]? = some f.len := rfl
theorem frameValues_res (f : FrameArgs) : (frameValues f)[13]? = some f.res := rfl
theorem frameValues_ck (f : FrameArgs) :
    (frameValues f)[14]? = some (f.ck.getD (BitVec.ofNat 16 (listSum (frameBody f)))) := rfl

@[simp] theorem length_frameBytes (f : FrameArgs) : (frameBytes f).length = 32 := rfl

/-- The checksum's span is the frame without its last two bytes. -/
theorem take_frameBytes (f : FrameArgs) : (frameBytes f).take 30 = frameBody f :=
  List.take_left' rfl

/-- Settles O52: every value is one of the fifteen of `frameValues`, read back at its offset. -/
theorem frameWritesTheWireLayout : Obligations.FrameWritesTheWireLayout := by
  refine ⟨fun _ => rfl, fun f => ⟨rfl, length_frameBytes f, rfl, rfl, ?_, fun k v hv => ?_, ?_, ?_⟩⟩
  · exact be16_frameBytes (f := f) (k := 0) (frameValues_len f)
  · rw [show 4 + 2 * k = 2 * (k + 1) + 2 by omega, show 5 + 2 * k = 2 * (k + 1) + 3 by omega]
    exact be16_frameBytes (frameValues_field hv)
  · exact be16_frameBytes (f := f) (k := 13) (frameValues_res f)
  · rw [take_frameBytes]
    exact be16_frameBytes (f := f) (k := 14) (frameValues_ck f)

end Sys2Proof.Machine
end

section
/-! FEED by its branches (40_assembler.md R65 to R69): what it does while enabled as one equation, and the statements that
are read off it. -/

namespace Sys2Proof.Machine

theorem exec_feed (b : Byte) (s : State) : exec (.feed b) s = execFeed b s := rfl

/-- FEED while enabled, all four steps at once (R67 to R70). -/
theorem execFeed_enabled {b : Byte} {s : State} (he : s.enabled = true) :
    execFeed b s = .next (
      if b = Config.marker1 then storeByte 0#5 b (beginCapture (quiet s))
      else if s.off = 1#6 ∧ b ≠ Config.marker2 then emit (.diag .desync) (abandonCapture (quiet s))
      else if s.inpkt = true ∧ s.off < 32#6 then completionTrigger (storeByte (s.off.setWidth 5) b (quiet s))
      else quiet s) := by
  obtain ⟨hd, -⟩ | ⟨-, hb, h⟩ | ⟨-, hb, h2, h⟩ | ⟨-, hb, h2, h3, h⟩ | ⟨-, hb, h2, h3, h⟩ := execFeed_cases b s
  · exact absurd (he.symm.trans hd) (by decide)
  · rw [h, if_pos hb]
  · rw [h, if_neg hb, if_pos h2]
  · rw [h, if_neg hb, if_neg h2, if_pos h3]
  · rw [h, if_neg hb, if_neg h2, if_neg h3]

/-- FEED of a 0x42 while enabled (R67). -/
theorem execFeed_marker1 {s : State} (he : s.enabled = true) :
    execFeed Config.marker1 s = .next (storeByte 0#5 Config.marker1 (beginCapture (quiet s))) := by
  rw [execFeed_enabled he, if_pos rfl]

/-- FEED where the second-byte check fails (R68). -/
theorem execFeed_secondByteFails {b : Byte} {s : State} (he : s.enabled = true) (hb : b ≠ Config.marker1)
    (h2 : secondByteFails b s) : execFeed b s = .next (emit (.diag .desync) (abandonCapture (quiet s))) := by
  rw [execFeed_enabled he, if_neg hb, if_pos h2]

/-- FEED past steps 1 and 2 while capturing with room (R69, R70). -/
theorem execFeed_capturing {b : Byte} {s : State} (he : s.enabled = true) (hb : b ≠ Config.marker1)
    (h2 : ¬ secondByteFails b s) (hin : s.inpkt = true) (hroom : s.off < 32#6) :
    execFeed b s = .next (completionTrigger (storeByte (s.off.setWidth 5) b (quiet s))) := by
  rw [execFeed_enabled he, if_neg hb, if_neg h2, if_pos ⟨hin, hroom⟩]

/-- FEED past steps 1 and 2 while not capturing or full (R69, R72). -/
theorem execFeed_notStored {b : Byte} {s : State} (he : s.enabled = true) (hb : b ≠ Config.marker1)
    (h2 : ¬ secondByteFails b s) (h3 : ¬ (s.inpkt = true ∧ s.off < 32#6)) : execFeed b s = .next (quiet s) := by
  rw [execFeed_enabled he, if_neg hb, if_neg h2, if_neg h3]

/-- The completion trigger writes nothing but the event (R89). -/
theorem completionTrigger_eq_setEvent (s : State) : ∃ e, completionTrigger s = { s with event := e } := by
  obtain h | ⟨-, e, h⟩ := completionTrigger_cases s
  · exact ⟨s.event, h⟩
  · exact ⟨some e, h⟩

/-- Settles O16. -/
theorem feedWhileDisabledHasNoEffect : Obligations.FeedWhileDisabledHasNoEffect :=
  fun _ _ => execFeed_disabled

/-- Settles O17: the 0x42 is stored at 0, and `off` goes on to 1. -/
theorem feedMarkerBeginsACapture : Obligations.FeedMarkerBeginsACapture :=
  fun _ => execFeed_marker1

/-- Settles O18: the check fails for the byte, and a 0x42 emits nothing whether the path is open or closed. -/
theorem feedFailedSecondByte : Obligations.FeedFailedSecondByte := by
  refine ⟨fun b s he hoff hb1 hb2 => execFeed_secondByteFails he hb1 ⟨hoff, hb2⟩, fun s => ?_⟩
  rw [exec_feed]
  cases he : s.enabled with
  | false => exact ⟨_, execFeed_disabled he, rfl⟩
  | true => exact ⟨_, execFeed_marker1 he, rfl⟩

/-- Settles O19: the marker, a store below 31, the store at 31 and no store are each a branch of FEED. -/
theorem feedStoresWhileCapturing : Obligations.FeedStoresWhileCapturing := by
  refine fun b s he => ⟨?marker, ?below, ?last, ?notStored⟩
  case marker =>
    rintro rfl
    exact ⟨_, execFeed_marker1 he, rfl, read_write_same s.buf 0#5 Config.marker1⟩
  case below =>
    intro hb h2 hin hoff
    have hne : (storeByte (s.off.setWidth 5) b (quiet s)).off ≠ 32#6 := by
      rw [storeByte_off, quiet_off]; bv_omega
    rw [exec_feed, execFeed_capturing he hb h2 hin (by bv_omega), completionTrigger_of_ne hne]
    rfl
  case last =>
    intro hb hin hoff
    have h2 : ¬ secondByteFails b s := fun h => absurd (hoff.symm.trans h.1) (by decide)
    obtain ⟨e, htrigger⟩ := completionTrigger_eq_setEvent (storeByte (s.off.setWidth 5) b (quiet s))
    refine ⟨e, ?_⟩
    rw [exec_feed, execFeed_capturing he hb h2 hin (by rw [hoff]; decide), htrigger]
    simp [storeByte, memWrite, quiet, hoff]
  case notStored =>
    intro hb h2 hno
    refine execFeed_notStored he hb h2 ?_
    rintro ⟨hin, hroom⟩
    obtain hin' | hfull := hno
    · exact absurd (hin.symm.trans hin') (by decide)
    · exact BitVec.not_lt.2 hfull hroom

end Sys2Proof.Machine
end

section
/-! Runs of FEEDs (40_assembler.md R77): what the first FEED adds to an observation, and the bytes after a candidate (R73). -/

namespace Sys2Proof.Machine

/-- The word of a FEED decodes to that FEED (R56). -/
theorem decode_encode_feed (b : Byte) : decode (encode (.feed b)) = .instr (.feed b) :=
  decode_eq_feed_iff.2 ⟨BitVec.extractLsb'_append_eq_left, BitVec.extractLsb'_append_eq_right.symm⟩

/-- A FEED leaves the inputs that wait. -/
theorem execFeed_inputs {b : Byte} {s t : State} (h : execFeed b s = .next t) : t.inputs = s.inputs := by
  obtain ⟨-, h'⟩ | ⟨-, -, h'⟩ | ⟨-, -, -, h'⟩ | ⟨-, -, -, -, h'⟩ | ⟨-, -, -, -, h'⟩ := execFeed_cases b s
  all_goals
    obtain rfl := Host.Outcome.next.inj (h'.symm.trans h)
    simp

/-- A step with the word of a FEED waiting is that FEED. -/
theorem step_feedWord (b : Byte) (rest : List Input) (s : State) :
    step { s with inputs := .txn (encode (.feed b)) :: rest } = execFeed b { s with event := none, inputs := rest } := by
  simp [step, nextAction, inputAction, wordAction, decode_encode_feed, exec_feed, takeInput, quiet]

/-- The first FEED's event, then the observation of the rest, counted one later (R77). -/
theorem observe_feedInputs_cons {b : Byte} {bs : List Byte} {s t : State}
    (h : execFeed b { s with event := none, inputs := feedInputs bs } = .next t) :
    observe (feedInputs (b :: bs)) s =
      (t.event.toList.map (fun e => (0, e)) ++ (observe (feedInputs bs) t).1.map (fun p => (p.1 + 1, p.2)),
        (observe (feedInputs bs) t).2) :=
  observe_cons ((step_feedWord b (feedInputs bs) s).trans h) (execFeed_inputs h)

/-- After a candidate a byte that is not 0x42 only drops the event of the step before (R73). -/
theorem execFeed_afterCandidate {b : Byte} {s : State} (hoff : s.off = 32#6) (hb : b ≠ Config.marker1) :
    execFeed b s = .next (quiet s) := by
  cases he : s.enabled with
  | false => exact execFeed_disabled he
  | true =>
    refine execFeed_notStored he hb (fun h => ?_) (fun h => ?_)
    · exact absurd (hoff.symm.trans h.1) (by decide)
    · exact absurd (hoff ▸ h.2) (by decide)

/-- Settles O50, by induction on the bytes: each of them leaves the state as it was, with no event. -/
theorem nothingFollowsACandidateButAMarker : Obligations.NothingFollowsACandidateButAMarker := by
  intro bs
  induction bs with
  | nil => exact fun s _ _ _ => ⟨rfl, rfl⟩
  | cons b bs ih =>
    intro s he hoff hbs
    obtain ⟨hb, hbs⟩ := not_or.1 (List.mem_cons.not.1 hbs)
    have hfeed := execFeed_afterCandidate (s := { s with event := none, inputs := feedInputs bs }) hoff (Ne.symm hb)
    obtain ⟨hevents, hstate⟩ := ih (quiet { s with event := none, inputs := feedInputs bs }) he hoff hbs
    rw [observe_feedInputs_cons hfeed, hevents]
    exact ⟨rfl, hstate⟩

end Sys2Proof.Machine
end

section
/-! The values a candidate frame is read by (20_memory.md R34, 41_validate_decode.md R81 to R87): a 16-bit field as a number,
the sum as a list sum, the two checks in numbers, and the field table. -/

namespace Sys2Proof.Machine

/-- A big-endian pair as a number (R34). -/
theorem toNat_be16 (hi lo : Byte) : (be16 hi lo).toNat = hi.toNat * 256 + lo.toNat := by
  rw [be16, BitVec.toNat_append, ← Nat.shiftLeft_add_eq_or_of_lt lo.isLt, Nat.shiftLeft_eq]

/-- The declared length stands at 2 and 3 (R47). -/
theorem lengthField_eq (m : Memory) : lengthField m = be16 (m.read 2#5) (m.read 3#5) := rfl

/-- The checksum field stands at 30 and 31 (R50). -/
theorem checksumField_eq (m : Memory) : checksumField m = be16 (m.read 30#5) (m.read 31#5) := rfl

/-- The sum of the first bytes, as a sum over a list (R35). -/
theorem byteSum_eq_sum (m : Memory) (n : Nat) :
    byteSum m n = ((List.range n).map fun i => (m.read (BitVec.ofNat 5 i)).toNat).sum := by
  induction n with
  | zero => rfl
  | succ n ih => rw [byteSum, ih, List.sum_range_succ]

/-- The computed checksum is the sum of bytes 0 to 29 (R82). -/
theorem checksum_eq_ofNat_sum (m : Memory) :
    checksum m = BitVec.ofNat 16 ((List.range 30).map fun i => (m.read (BitVec.ofNat 5 i)).toNat).sum :=
  congrArg (BitVec.ofNat 16) (byteSum_eq_sum m 30)

/-- The length check in numbers (R81). -/
theorem lengthOk_eq_false_iff {m : Memory} :
    lengthOk m = false ↔ (m.read 2#5).toNat * 256 + (m.read 3#5).toNat ≠ 28 := by
  rw [← Bool.not_eq_true, lengthOk_eq_true, lengthField_eq, ← BitVec.toNat_inj, toNat_be16]
  rfl

/-- The checksum check in numbers (R82, R83). -/
theorem checksumOk_eq_false_iff {m : Memory} :
    checksumOk m = false ↔
      ((List.range 30).map fun i => (m.read (BitVec.ofNat 5 i)).toNat).sum % 65536 ≠
        (m.read 30#5).toNat * 256 + (m.read 31#5).toNat := by
  rw [← Bool.not_eq_true, checksumOk_eq_true, checksum_eq_ofNat_sum, checksumField_eq, ← BitVec.toNat_inj, toNat_be16,
    BitVec.toNat_ofNat]

/-- The record's fields are the values at 4, 6, ..., 26 (R86). -/
theorem toList_decodeRecord (m : Memory) :
    (decodeRecord m).toList = (List.range 12).map fun k => read16 m (BitVec.ofNat 5 (4 + 2 * k)) := rfl

/-- The value at `4 + 2k` is made of the bytes at `4 + 2k` and `5 + 2k` (R34). -/
theorem read16_fieldAddr (m : Memory) (k : Nat) :
    read16 m (BitVec.ofNat 5 (4 + 2 * k)) =
      be16 (m.read (BitVec.ofNat 5 (4 + 2 * k))) (m.read (BitVec.ofNat 5 (5 + 2 * k))) := by
  rw [read16, ← BitVec.ofNat_add, Nat.add_right_comm]

/-- A record is determined by its twelve fields. -/
theorem Record.toList_injective {r q : Record} (h : r.toList = q.toList) : r = q :=
  Option.some.inj (congrArg recordOfList h)

/-- Decode reads bytes 4 to 27 and no others (R86, R87). -/
theorem decodeRecord_congr {m n : Memory} (h : ∀ a : Addr, 4 ≤ a.toNat → a.toNat ≤ 27 → m.read a = n.read a) :
    decodeRecord m = decodeRecord n := by
  have hread : ∀ i, 4 ≤ i → i ≤ 27 → m.read (BitVec.ofNat 5 i) = n.read (BitVec.ofNat 5 i) := fun i hlo hhi =>
    have hi : (BitVec.ofNat 5 i).toNat = i := Nat.mod_eq_of_lt (by omega)
    h _ (by omega) (by omega)
  apply Record.toList_injective
  rw [toList_decodeRecord, toList_decodeRecord]
  refine List.map_congr_left fun k hk => ?_
  have hk := List.mem_range.1 hk
  rw [read16_fieldAddr, read16_fieldAddr, hread (4 + 2 * k) (by omega) (by omega),
    hread (5 + 2 * k) (by omega) (by omega)]

/-- Settles O40: each field by its two bytes, and the bytes outside the table. -/
theorem decodeReadsTheFieldTable : Obligations.DecodeReadsTheFieldTable := by
  refine ⟨fun m => ?_, fun _ _ => decodeRecord_congr⟩
  simp only [toList_decodeRecord, List.map_map, Function.comp_def, read16_fieldAddr, toNat_be16]

end Sys2Proof.Machine
end

section
/-! Validation of a candidate (41_validate_decode.md R80 to R91): its outcome as a function of the 32 bytes and of whether a
consumer is registered, the FEED that brings it about, and that no record comes from anywhere else. -/

namespace Sys2Proof.Machine

/-- What `Complete()` reports of the 32 bytes, with or without a consumer (R80, R88). -/
def candidateEvent (m : Memory) (sink : Bool) : Option Event :=
  if lengthOk m = false then some (.diag .lenMismatch)
  else if checksumOk m = false then some (.diag .cksumMismatch)
  else if sink = true then some (.record (decodeRecord m))
  else none

/-- `Complete()` on a state with no event leaves the candidate's event and nothing else (R89). -/
theorem complete_eq_candidateEvent {s : State} (h : s.event = none) :
    complete s = { s with event := candidateEvent s.buf s.sinkPresent } := by
  unfold complete candidateEvent
  split_ifs
  · rfl
  · rfl
  · rfl
  · rw [← h]

/-- A candidate is reported as a record exactly when both checks pass and a consumer is registered (R88, R91). -/
theorem candidateEvent_eq_record_iff {m : Memory} {sink : Bool} {r : Record} :
    candidateEvent m sink = some (.record r) ↔
      lengthOk m = true ∧ checksumOk m = true ∧ sink = true ∧ r = decodeRecord m := by
  unfold candidateEvent
  split_ifs with hlen hck hsink
  · simp [hlen]
  · simp [hck]
  · simp [hlen, hck, hsink, eq_comm (a := r)]
  · simp [hsink]

/-- The FEED that stores byte 31 validates the candidate it completes (R70, R80). -/
theorem execFeed_lastByte {b : Byte} {s : State} (he : s.enabled = true) (hin : s.inpkt = true)
    (hoff : s.off = 31#6) (hb : b ≠ Config.marker1) :
    execFeed b s = .next { s with
      buf := s.buf.write 31#5 b, off := 32#6, event := candidateEvent (s.buf.write 31#5 b) s.sinkPresent } := by
  have h2 : ¬ secondByteFails b s := fun h => absurd (hoff.symm.trans h.1) (by decide)
  have hfull : (storeByte (s.off.setWidth 5) b (quiet s)).off = 32#6 := by
    rw [storeByte_off, quiet_off, hoff]
    rfl
  rw [execFeed_capturing he hb h2 hin (by rw [hoff]; decide), completionTrigger_of_eq hfull,
    complete_eq_candidateEvent rfl]
  simp [storeByte, memWrite, quiet, hoff]

/-- Settles O20: the last byte's FEED reports the candidate's event, its two checks written as numbers. -/
theorem feedCompletesACandidate : Obligations.FeedCompletesACandidate := by
  intro b s he hin hoff hb
  simp only [exec_feed, execFeed_lastByte he hin hoff hb, candidateEvent, lengthOk_eq_false_iff,
    checksumOk_eq_false_iff]

/-- A FEED delivers a record only as the last byte of a frame while enabled (R70, R91). -/
theorem execFeed_record {b : Byte} {s t : State} {r : Record} (h : execFeed b s = .next t)
    (hr : t.event = some (.record r)) :
    s.enabled = true ∧ s.inpkt = true ∧ s.off = 31#6 ∧ b ≠ Config.marker1 := by
  obtain ⟨-, h'⟩ | ⟨-, -, h'⟩ | ⟨-, -, -, h'⟩ | ⟨he, hb, -, ⟨hin, -⟩, h'⟩ | ⟨-, -, -, -, h'⟩ := execFeed_cases b s
  all_goals obtain rfl := Host.Outcome.next.inj (h'.symm.trans h)
  case inr.inr.inr.inl =>
    refine ⟨he, hin, ?_, hb⟩
    by_contra hoff
    have hne : (storeByte (s.off.setWidth 5) b (quiet s)).off ≠ 32#6 := by
      rw [storeByte_off, quiet_off]; bv_omega
    simp [completionTrigger_of_ne hne] at hr
  all_goals simp at hr

/-- A step delivers a record only where it runs a FEED that does (R91). -/
theorem step_record {s t : State} {r : Record} (h : step s = .next t) (hr : t.event = some (.record r)) :
    ∃ cmd b, s.inputs.head? = some (.txn cmd) ∧ decode cmd = .instr (.feed b) ∧
      execFeed b (takeInput s) = .next t := by
  obtain ⟨-, rfl⟩ | ⟨-, rfl⟩ | ⟨_, _, -, -, rfl⟩ | ⟨_, _, -, -, rfl⟩ | ⟨_, -, -, rfl⟩ | hfeed := step_next_cases h
  case inr.inr.inr.inr.inr => exact hfeed
  all_goals simp at hr

/-- Settles O25: the step is the FEED of a last byte, and its event is the candidate's. -/
theorem recordsOnlyFromValidatedFrames : Obligations.RecordsOnlyFromValidatedFrames := by
  intro s t r h hr
  obtain ⟨cmd, b, hcmd, hd, hfeed⟩ := step_record h hr
  obtain ⟨he, hin, hoff, hb⟩ := execFeed_record hfeed hr
  obtain rfl := Host.Outcome.next.inj ((execFeed_lastByte he hin hoff hb).symm.trans hfeed)
  obtain ⟨hlen, hck, hsink, hrec⟩ := candidateEvent_eq_record_iff.1 hr
  rw [lengthOk_eq_true, lengthField_eq] at hlen
  rw [checksumOk_eq_true, checksum_eq_ofNat_sum, checksumField_eq] at hck
  exact ⟨he, hsink, hin, hoff, rfl, hin, ⟨cmd, b, hcmd, hd, hb, read_write_same s.buf 31#5 b⟩, hlen, hck, hrec⟩

end Sys2Proof.Machine
end

section
/-! ENABLE and DISABLE as one equation each (42_lifecycle.md R95 to R98), in the updates of the state that Laws/State
describes field by field, and the statements that are read off them. -/

namespace Sys2Proof.Machine

/-- ENABLE, open or not (R95, R96): the event is cleared and the path opened with the new consumer. -/
theorem exec_enable (p : Bool) (s : State) : exec (.enable p) s = .next (openPath p (quiet s)) := rfl

/-- DISABLE, closed or not (R97, R98): the event is cleared and the path closed. -/
theorem exec_disable (s : State) : exec .disable s = .next (closePath (quiet s)) := rfl

/-- Settles O26: opening the path writes the two bits, and clearing the event writes the rest of the difference. -/
theorem enableOpensThePath : Obligations.EnableOpensThePath :=
  exec_enable

/-- Settles O27: closing the path writes the two bits, and clearing the event writes the rest of the difference. -/
theorem disableClosesThePath : Obligations.DisableClosesThePath :=
  exec_disable

end Sys2Proof.Machine
end

section
/-! The three error classes (60_exceptions.md R105 to R109): which diagnostic a candidate is reported by, and which FEEDs
while enabled can emit an event at all. -/

namespace Sys2Proof.Machine

/-- A candidate is a length mismatch exactly when its declared length is not 28 (R81, R108). -/
theorem candidateEvent_eq_lenMismatch_iff {m : Memory} {sink : Bool} :
    candidateEvent m sink = some (.diag .lenMismatch) ↔ be16 (m.read 2#5) (m.read 3#5) ≠ 28#16 := by
  rw [← lengthField_eq, ne_eq, ← lengthOk_eq_true]
  unfold candidateEvent
  split_ifs with hlen
  · simp [hlen]
  all_goals simpa using hlen

/-- A candidate is a checksum mismatch exactly when its length is right and its sum is not the checksum field
(R82 to R84, R109). -/
theorem candidateEvent_eq_cksumMismatch_iff {m : Memory} {sink : Bool} :
    candidateEvent m sink = some (.diag .cksumMismatch) ↔
      be16 (m.read 2#5) (m.read 3#5) = 28#16 ∧
        BitVec.ofNat 16 ((List.range 30).map fun i => (m.read (BitVec.ofNat 5 i)).toNat).sum ≠
          be16 (m.read 30#5) (m.read 31#5) := by
  rw [← lengthField_eq, ← checksumField_eq, ← checksum_eq_ofNat_sum, ne_eq, ← lengthOk_eq_true,
    ← checksumOk_eq_true]
  unfold candidateEvent
  split_ifs with hlen hck
  · simp [hlen]
  · simpa [hck] using hlen
  all_goals simp [hck]

/-- `Complete()` reports no desync (R107). -/
theorem candidateEvent_ne_desync (m : Memory) (sink : Bool) : candidateEvent m sink ≠ some (.diag .desync) := by
  unfold candidateEvent
  split_ifs <;> simp

/-- FEED while enabled, by what it can emit: the desync of a failed second byte, the candidate's event at the last byte, or
nothing (R106). -/
theorem execFeed_event_cases (b : Byte) {s : State} (he : s.enabled = true) :
    ((b ≠ Config.marker1 ∧ secondByteFails b s) ∧
      execFeed b s = .next (emit (.diag .desync) (abandonCapture (quiet s)))) ∨
    ((b ≠ Config.marker1 ∧ s.inpkt = true ∧ s.off = 31#6) ∧
      execFeed b s = .next { s with
        buf := s.buf.write 31#5 b, off := 32#6, event := candidateEvent (s.buf.write 31#5 b) s.sinkPresent }) ∨
    (¬ (b ≠ Config.marker1 ∧ secondByteFails b s) ∧ ¬ (b ≠ Config.marker1 ∧ s.inpkt = true ∧ s.off = 31#6) ∧
      ∃ t, execFeed b s = .next t ∧ t.event = none) := by
  by_cases hb : b = Config.marker1
  · subst hb
    exact .inr (.inr ⟨fun h => h.1 rfl, fun h => h.1 rfl, _, execFeed_marker1 he, rfl⟩)
  by_cases h2 : secondByteFails b s
  · exact .inl ⟨⟨hb, h2⟩, execFeed_secondByteFails he hb h2⟩
  by_cases hlast : s.inpkt = true ∧ s.off = 31#6
  · exact .inr (.inl ⟨⟨hb, hlast⟩, execFeed_lastByte he hlast.1 hlast.2 hb⟩)
  refine .inr (.inr ⟨fun h => h2 h.2, fun h => hlast h.2, ?_⟩)
  obtain ⟨-, hbelow, -, hnotStored⟩ := feedStoresWhileCapturing b s he
  cases hin : s.inpkt with
  | false => exact ⟨_, hnotStored hb h2 (.inl hin), rfl⟩
  | true =>
    have hoff : s.off ≠ 31#6 := fun h => hlast ⟨hin, h⟩
    obtain hroom | hfull : s.off < 31#6 ∨ 32#6 ≤ s.off := by bv_omega
    · exact ⟨_, hbelow hb h2 hin hroom, rfl⟩
    · exact ⟨_, hnotStored hb h2 (.inr hfull), rfl⟩

/-- Settles O24: a failed second byte has `off = 1` and the last byte `off = 31`, so at most one class applies, and every
other FEED emits no diagnostic. -/
theorem diagnosticsExactlyWhenTheirConditionHolds : Obligations.DiagnosticsExactlyWhenTheirConditionHolds := by
  intro b s he
  rw [exec_feed]
  obtain ⟨⟨hb, hoff, hb2⟩, hfeed⟩ | ⟨⟨hb, hin, hoff⟩, hfeed⟩ | ⟨hno2, hnolast, t, hfeed, hevent⟩ :=
    execFeed_event_cases b he
  case inl =>
    exact ⟨_, hfeed, ⟨fun _ => ⟨hoff, hb, hb2⟩, fun _ => rfl⟩, by simp [hoff], by simp [hoff]⟩
  case inr.inl =>
    refine ⟨_, hfeed, ?_, ?_, ?_⟩
    · simp [hoff, candidateEvent_ne_desync]
    · rw [candidateEvent_eq_lenMismatch_iff]
      exact ⟨fun h => ⟨hb, hin, hoff, h⟩, fun ⟨_, _, _, h⟩ => h⟩
    · rw [candidateEvent_eq_cksumMismatch_iff]
      exact ⟨fun h => ⟨hb, hin, hoff, h⟩, fun ⟨_, _, _, h⟩ => h⟩
  case inr.inr =>
    refine ⟨t, hfeed, ?_⟩
    simp only [hevent, reduceCtorEq, false_iff]
    exact ⟨fun ⟨hoff, hb, hb2⟩ => hno2 ⟨hb, hoff, hb2⟩, fun ⟨hb, hin, hoff, _⟩ => hnolast ⟨hb, hin, hoff⟩,
      fun ⟨hb, hin, hoff, _⟩ => hnolast ⟨hb, hin, hoff⟩⟩

end Sys2Proof.Machine
end

section
/-! Words and their instructions both ways (30_encoding.md R55 to R57), and the words the spec writes out. -/

namespace Sys2Proof

/-- Decoding the word of an instruction gives the instruction back (R55 to R57). -/
theorem decode_encode (i : Instr) : decode (encode i) = .instr i := by
  cases i with
  | feed b => exact Machine.decode_encode_feed b
  | enable p => cases p <;> rfl
  | disable => rfl

/-- A word is two given parts put together exactly when it splits into them. -/
theorem eq_append_iff {w v : Nat} {x : BitVec (w + v)} {hi : BitVec w} {lo : BitVec v} :
    x = hi ++ lo ↔ x.extractLsb' v w = hi ∧ x.extractLsb' 0 v = lo := by
  have h := extractLsb'_eq_append_iff (x := x) (start := 0) (hi := hi) (lo := lo)
  rwa [BitVec.extractLsb'_eq_self, Nat.zero_add] at h

/-- `cmd[0]` as a word of its own (R57). -/
theorem Cmd.extractLsb'_lowest (cmd : Cmd) : cmd.extractLsb' 0 1 = BitVec.ofBool (cmd.getLsbD 0) := by
  rw [← BitVec.setWidth_eq_extractLsb' (by decide), BitVec.setWidth_one]

/-- Encoding what a word decodes to gives the word back: the fields the decoder reads are the whole word (R55). -/
theorem encode_of_decode {cmd : Cmd} {i : Instr} (h : decode cmd = .instr i) : encode i = cmd := by
  symm
  cases i with
  | feed b =>
    obtain ⟨hop, hdata⟩ := decode_eq_feed_iff.1 h
    exact eq_append_iff.2 ⟨hop, hdata.symm⟩
  | enable p =>
    obtain ⟨hop, hzero, hp⟩ := decode_eq_enable_iff.1 h
    exact eq_append_iff.2 ⟨Cmd.upper_eq_iff.2 ⟨hop, hzero⟩, hp ▸ cmd.extractLsb'_lowest⟩
  | disable => exact Cmd.eq_disable_iff.2 (decode_eq_disable_iff.1 h)

/-- Settles O7: every instruction is well formed, so the premise says nothing. -/
theorem decodeOfEncode : Obligations.DecodeOfEncode :=
  fun i _ => decode_encode i

/-- Settles O8. -/
theorem encodeOfDecode : Obligations.EncodeOfDecode :=
  fun _ _ => encode_of_decode

/-- Settles O11, by running the decoder on the nine words. -/
theorem writtenOutWordsDecode : Obligations.WrittenOutWordsDecode := by
  unfold Obligations.WrittenOutWordsDecode
  decide

/-- A number of at most 12 bits is read as the transaction word it numbers (R55). -/
theorem tableWord_toNat {nbits : Nat} (h : 12 ≤ nbits) (cmd : Cmd) : tableWord nbits cmd.toNat = some cmd := by
  have hlt : cmd.toNat < 2 ^ nbits := cmd.isLt.trans_le (Nat.pow_le_pow_right (by decide) h)
  rw [tableWord, Nat.mod_eq_of_lt hlt, if_pos cmd.isLt, BitVec.ofNat_toNat, BitVec.setWidth_eq]

end Sys2Proof
end

section
/-! One step by what its oldest input asks for (20_memory.md R38, R40; 60_exceptions.md R111). -/

namespace Sys2Proof.Machine

/-- A step that executes runs `exec` on the state with the input taken (R38). -/
theorem step_of_execute {s : State} {inp : Input} {rest : List Input} {i : Instr}
    (hin : s.inputs = inp :: rest) (ha : inputAction inp = .execute i) :
    step s = exec i { s with event := none, inputs := rest } := by
  simp [step, nextAction, hin, ha, takeInput, quiet]

/-- A legal word in its turn asks for its instruction (R40). -/
theorem inputAction_txn {cmd : Cmd} {i : Instr} (h : decode cmd = .instr i) :
    inputAction (.txn cmd) = .execute i := by
  simp [inputAction, wordAction, h]

/-- The consumer's ENABLE or DISABLE asks for itself (R102). -/
theorem inputAction_react {cmd : Cmd} {i : Instr} (h : decode cmd = .instr i) (hi : ∀ b, i ≠ .feed b) :
    inputAction (.react cmd) = .execute i := by
  cases i with
  | feed b => exact absurd rfl (hi b)
  | enable p => simp [inputAction, reactionAction, h]
  | disable => simp [inputAction, reactionAction, h]

/-- The consumer's FEED asks for `raise ReentrantAccess` (R118). -/
theorem inputAction_react_feed {cmd : Cmd} {b : Byte} (h : decode cmd = .instr (.feed b)) :
    inputAction (.react cmd) = .raise .reentrantAccess := by
  simp [inputAction, reactionAction, h]

/-- The consumer's illegal word asks for `raise IllegalCommand(cmd)` (D25). -/
theorem inputAction_react_of_illegal {cmd : Cmd} (h : (decode cmd).instr? = none) :
    inputAction (.react cmd) = .raise (.illegalCommand cmd) := by
  cases hd : decode cmd with
  | instr i => simp [hd, Decoded.instr?] at h
  | illegal why => simp [inputAction, reactionAction, hd]

/-- Every instruction answers a next state and leaves the waiting inputs (R111). -/
theorem exec_next (i : Instr) (s : State) : ∃ t, exec i s = .next t ∧ t.inputs = s.inputs := by
  cases i with
  | feed b =>
    rw [exec_feed]
    obtain ⟨-, h⟩ | ⟨-, -, h⟩ | ⟨-, -, -, h⟩ | ⟨-, -, -, -, h⟩ | ⟨-, -, -, -, h⟩ := execFeed_cases b s
    all_goals exact ⟨_, h, execFeed_inputs h⟩
  | enable p => exact ⟨_, exec_enable p s, rfl⟩
  | disable => exact ⟨_, exec_disable s, rfl⟩

/-- Settles O6: each of the four actions answers a next state. -/
theorem everyStepAnswersNext : Obligations.EveryStepAnswersNext := by
  intro s
  obtain ⟨-, h⟩ | ⟨inp, rest, -, ⟨-, h⟩ | ⟨r, -, h⟩ | ⟨i, -, h⟩⟩ := step_cases s
  · exact ⟨_, h, takeInput_inputs s⟩
  · exact ⟨_, h, takeInput_inputs s⟩
  · exact ⟨_, h, takeInput_inputs s⟩
  · obtain ⟨t, ht, hin⟩ := exec_next i (takeInput s)
    exact ⟨t, h.trans ht, hin⟩

/-- Settles O4. -/
theorem stepRunsTheDecodedInstruction : Obligations.StepRunsTheDecodedInstruction :=
  fun _ _ _ _ hin hd => step_of_execute hin (inputAction_txn hd)

/-- Settles O5: the number is read as its word, and the word presented is the oldest input. -/
theorem presentedWordRunsNext : Obligations.PresentedWordRunsNext := by
  intro s cmd i nbits hn hd
  have hword := tableWord_toNat hn cmd
  constructor
  · have hpresent : s.withFetchWord nbits cmd.toNat = present cmd s := by simp only [State.withFetchWord, hword]
    rw [hpresent, stepRunsTheDecodedInstruction _ cmd s.inputs i (present_inputs s cmd) hd]
    rfl
  · simp only [decodeTableWord, hword, hd, Decoded.instr?]

/-- Settles O2: the buffer's value after reset is the empty one. -/
theorem resetInputResetsEveryElement : Obligations.ResetInputResetsEveryElement := by
  intro s rest hin
  refine ⟨[], ?_⟩
  simp [step, nextAction, inputAction, hin, resetBlock, takeInput, State.reset]

/-- Settles O3. -/
theorem idleStepOnlyDropsTheEvent : Obligations.IdleStepOnlyDropsTheEvent := by
  intro s hin
  simp [step, nextAction, hin, takeInput, quiet]

/-- Settles O13: both kinds of input ask for the same raise. -/
theorem overlapRaisesReentrantAccess : Obligations.OverlapRaisesReentrantAccess := by
  rintro s cmd rest (hin | ⟨hin, b, hd⟩)
  · exact step_of_raise hin rfl
  · exact step_of_raise hin (inputAction_react_feed hd)

/-- Settles O14: the lifecycle word is executed, the illegal word raised. -/
theorem consumerReactionIsTheNextStep : Obligations.ConsumerReactionIsTheNextStep :=
  ⟨fun _ _ _ _ hin hd hi => step_of_execute hin (inputAction_react hd hi),
    fun _ _ _ hin hd => step_of_raise hin (inputAction_react_of_illegal hd)⟩

/-- Settles O33: the reset state is (0, 0), it has captured no byte, and its buffer is empty. -/
theorem resetMeetsTheInvariants : Obligations.ResetMeetsTheInvariants :=
  ⟨.inl ⟨rfl, .inl rfl⟩, ⟨fun h => absurd h (by decide), fun h => absurd h (by decide),
    fun a _ h => absurd h (Nat.not_lt_zero a.toNat)⟩, wf_nil⟩

end Sys2Proof.Machine
end

section
/-! The frame of each transaction (20_memory.md R32, 40_assembler.md R65, 42_lifecycle.md R99, R103): what it leaves as it
was. -/

namespace Sys2Proof.Machine

/-- Steps 1 and 2 of FEED write only `off`, `inpkt` and the event (R67, R68). -/
theorem beforeStore_cases (b : Byte) (s : State) :
    beforeStore b s = beginCapture (quiet s) ∨ beforeStore b s = emit (.diag .desync) (abandonCapture (quiet s)) ∨
      beforeStore b s = quiet s := by
  by_cases hb : b = Config.marker1
  · subst hb
    exact .inl (beforeStore_marker1 s)
  · rw [beforeStore_other hb]
    split_ifs
    · exact .inr (.inl rfl)
    · exact .inr (.inr rfl)

@[simp] theorem beforeStore_buf (b : Byte) (s : State) : (beforeStore b s).buf = s.buf := by
  obtain h | h | h := beforeStore_cases b s <;> simp [h]

/-- The slot FEED stores to is 0 or the old `off` (R67, R69). -/
theorem storeSlot_beforeStore {b : Byte} {s : State} {a : Addr} (h : storeSlot (beforeStore b s) = some a) :
    a = 0 ∨ a = s.off.setWidth 5 := by
  obtain ⟨-, rfl⟩ := storeSlot_eq_some.1 h
  obtain h | h | h := beforeStore_cases b s
  · exact .inl (by rw [h]; rfl)
  · exact .inr (by rw [h]; rfl)
  · exact .inr (by rw [h]; rfl)

/-- FEED writes no path bit, no fault mark and no waiting input (R65). -/
theorem execFeed_keeps {b : Byte} {s t : State} (h : execFeed b s = .next t) :
    t.enabled = s.enabled ∧ t.sinkPresent = s.sinkPresent ∧ t.fault = s.fault ∧ t.inputs = s.inputs := by
  obtain ⟨-, h'⟩ | ⟨-, -, h'⟩ | ⟨-, -, -, h'⟩ | ⟨-, -, -, -, h'⟩ | ⟨-, -, -, -, h'⟩ := execFeed_cases b s
  all_goals
    obtain rfl := Host.Outcome.next.inj (h'.symm.trans h)
    simp

/-- FEED leaves in the buffer the byte it stores, if it stores one (R69). -/
theorem execFeed_buf {b : Byte} {s t : State} (h : execFeed b s = .next t) :
    t.buf = (feedSlot b s).elim s.buf (s.buf.write · b) := by
  cases he : s.enabled with
  | false =>
    obtain rfl := Host.Outcome.next.inj ((execFeed_disabled he).symm.trans h)
    simp [feedSlot, he]
  | true =>
    cases hslot : storeSlot (beforeStore b s) with
    | none =>
      obtain rfl := Host.Outcome.next.inj ((execFeed_ignore he hslot).symm.trans h)
      simp [feedSlot, he, hslot]
    | some a =>
      obtain rfl := Host.Outcome.next.inj ((execFeed_store he hslot).symm.trans h)
      simp [feedSlot, he, hslot]

/-- FEED stores where step 3 has a place, and only while enabled (R66). -/
theorem storeSlot_of_feedSlot {b : Byte} {s : State} {a : Addr} (h : feedSlot b s = some a) :
    storeSlot (beforeStore b s) = some a := by
  unfold feedSlot at h
  split_ifs at h
  exact h

/-- Settles O22: the buffer after FEED is a write at the slot, or the buffer before. -/
theorem feedFrame : Obligations.FeedFrame := by
  intro b s t h
  obtain ⟨he, hsink, hfault, hin⟩ := execFeed_keeps h
  have hbuf := execFeed_buf h
  refine ⟨he, hsink, hfault, hin, fun a ha => ?_, fun hnone a' => ?_⟩
  · rw [ha, Option.elim_some] at hbuf
    rw [hbuf]
    exact ⟨read_write_same s.buf a b, storeSlot_beforeStore (storeSlot_of_feedSlot ha),
      fun a' ha' => read_write_other s.buf ha' b⟩
  · rw [hbuf, hnone, Option.elim_none]

/-- Settles O28: ENABLE and DISABLE write the two path bits and clear the event. -/
theorem lifecycleFrame : Obligations.LifecycleFrame := by
  intro i s t hi h
  cases i with
  | feed b => exact absurd rfl (hi b)
  | enable p =>
    obtain rfl := Host.Outcome.next.inj h
    exact ⟨rfl, rfl, fun _ => rfl, rfl, rfl, rfl⟩
  | disable =>
    obtain rfl := Host.Outcome.next.inj h
    exact ⟨rfl, rfl, fun _ => rfl, rfl, rfl, rfl⟩

/-- A capture of one byte: the next 0x4D moves `off`, and so does the one after it. -/
def oneByteCaptured : State := { State.reset with off := 1#6, inpkt := true, enabled := true }

/-- Settles O29: a second ENABLE or DISABLE finds nothing to write; a second 0x4D is stored behind the first. -/
theorem lifecycleIsIdempotentAndFeedIsNot : Obligations.LifecycleIsIdempotentAndFeedIsNot := by
  constructor
  · intro i s t hi h
    cases i with
    | feed b => exact absurd rfl (hi b)
    | enable p => obtain rfl := Host.Outcome.next.inj h; rfl
    | disable => obtain rfl := Host.Outcome.next.inj h; rfl
  · refine ⟨Config.marker2, oneByteCaptured, _, rfl, fun h => ?_⟩
    have hoff := congrArg State.off (Host.Outcome.next.inj h)
    exact absurd hoff (by decide)

/-- Settles O21: past a 0x42, FEED without a store is the failed second byte, where `inpkt` was clear already, or nothing. -/
theorem feedIgnoredByteChangesNothing : Obligations.FeedIgnoredByteChangesNothing := by
  intro b s t he hb h hidle
  rw [exec_feed] at h
  by_cases h2 : secondByteFails b s
  · obtain rfl := Host.Outcome.next.inj ((execFeed_secondByteFails he hb h2).symm.trans h)
    have hin : s.inpkt = false := by
      obtain ⟨hin, -⟩ | hoff := hidle
      · exact hin
      · exact absurd (hoff.symm.trans h2.1) (by decide)
    exact ⟨by simp [emit, abandonCapture, quiet, ← hin], (if_pos h2).symm⟩
  · have hfull : ¬ (s.inpkt = true ∧ s.off < 32#6) := by
      rintro ⟨hin, hroom⟩
      obtain ⟨hin', -⟩ | hoff := hidle
      · exact absurd (hin.symm.trans hin') (by decide)
      · exact absurd (hoff ▸ hroom) (by decide)
    obtain rfl := Host.Outcome.next.inj ((execFeed_notStored he hb h2 hfull).symm.trans h)
    exact ⟨rfl, (if_neg h2).symm⟩

/-- The class of a byte, by which marker it is (R52). -/
theorem byteClass_cases (b : Byte) :
    (b = Config.marker1 ∧ byteClass b = .marker1) ∨ (b = Config.marker2 ∧ byteClass b = .marker2) ∨
      (b ≠ Config.marker1 ∧ b ≠ Config.marker2 ∧ byteClass b = .data) := by
  unfold byteClass
  split_ifs with h1 h2
  · exact .inl ⟨h1, rfl⟩
  · exact .inr (.inl ⟨h2, rfl⟩)
  · exact .inr (.inr ⟨h1, h2, rfl⟩)

/-- Settles O23: a 0x42 begins again, a 0x4D is stored at 1, and a data byte fails the second-byte check. -/
theorem byteClassSelectsTheSecondByteCase : Obligations.ByteClassSelectsTheSecondByteCase := by
  intro b s he hoff hin
  rw [exec_feed]
  obtain ⟨rfl, hclass⟩ | ⟨rfl, hclass⟩ | ⟨hb1, hb2, hclass⟩ := byteClass_cases b <;> rw [hclass]
  case inl =>
    rw [execFeed_marker1 he]
    simp [storeByte, memWrite, beginCapture, quiet, hoff, hin, Config.marker1]
  case inr.inl =>
    obtain ⟨-, hbelow, -⟩ := feedStoresWhileCapturing Config.marker2 s he
    rw [← exec_feed, hbelow (by decide) (fun h => h.2 rfl) hin (by rw [hoff]; decide), hoff]
    rfl
  case inr.inr =>
    rw [execFeed_secondByteFails he hb1 ⟨hoff, hb2⟩]
    rfl

end Sys2Proof.Machine
end

section
/-! Who writes what (10_state.md §1 and §2): everything a step can do to the assembler's state, the path bits and the fault
mark. -/

namespace Sys2Proof.Machine

/-- The oldest input is the FEED word of this byte, in its turn (R56). -/
def State.feedNext (s : State) (b : Byte) : Prop :=
  ∃ cmd, s.inputs.head? = some (.txn cmd) ∧ decode cmd = .instr (.feed b)

/-- What a step can do to the assembler's state `buf`, `off`, `inpkt` (10_state.md §1). -/
inductive AssemblerMove (s t : State) : Prop
  /-- Nothing. -/
  | stays (hbuf : t.buf = s.buf) (hoff : t.off = s.off) (hin : t.inpkt = s.inpkt)
  /-- The reset input (R125). -/
  | resets (hhead : s.inputs.head? = some .reset) (hbuf : t.buf = []) (hoff : t.off = 0#6) (hin : t.inpkt = false)
  /-- A FEED of 0x42 while enabled (R67). -/
  | begins (he : s.enabled = true) (hfeed : s.feedNext Config.marker1)
      (hbuf : t.buf = s.buf.write 0#5 Config.marker1) (hoff : t.off = 1#6) (hin : t.inpkt = true)
  /-- A FEED while enabled that fails the second-byte check (R68). -/
  | fails (b : Byte) (he : s.enabled = true) (hfeed : s.feedNext b) (hb : b ≠ Config.marker1)
      (h2 : secondByteFails b s) (hbuf : t.buf = s.buf) (hoff : t.off = s.off) (hin : t.inpkt = false)
      (hevent : t.event = some (.diag .desync))
  /-- A FEED while enabled that stores its byte at `off` (R69). -/
  | stores (b : Byte) (he : s.enabled = true) (hfeed : s.feedNext b) (hb : b ≠ Config.marker1)
      (h2 : ¬ secondByteFails b s) (hcapt : s.inpkt = true) (hroom : s.off < 32#6)
      (hbuf : t.buf = s.buf.write (s.off.setWidth 5) b) (hoff : t.off = s.off + 1#6) (hin : t.inpkt = true)

/-- Every step moves the assembler's state in one of these five ways. -/
theorem step_assemblerMove {s t : State} (h : step s = .next t) : AssemblerMove s t := by
  obtain ⟨-, rfl⟩ | ⟨hhead, rfl⟩ | ⟨_, _, -, -, rfl⟩ | ⟨_, _, -, -, rfl⟩ | ⟨_, -, -, rfl⟩ |
    ⟨cmd, b, hhead, hd, hfeed⟩ := step_next_cases h
  · exact .stays rfl rfl rfl
  · exact .resets hhead rfl rfl rfl
  · exact .stays rfl rfl rfl
  · exact .stays rfl rfl rfl
  · exact .stays rfl rfl rfl
  · have hnext : s.feedNext b := ⟨cmd, hhead, hd⟩
    obtain ⟨-, h'⟩ | ⟨he, rfl, h'⟩ | ⟨he, hb, h2, h'⟩ | ⟨he, hb, h2, ⟨hin, hroom⟩, h'⟩ | ⟨-, -, -, -, h'⟩ :=
      execFeed_cases b (takeInput s)
    all_goals obtain rfl := Host.Outcome.next.inj (h'.symm.trans hfeed)
    · exact .stays rfl rfl rfl
    · exact .begins he hnext rfl rfl rfl
    · exact .fails b he hnext hb h2 rfl rfl rfl rfl
    · exact .stores b he hnext hb h2 hin hroom (by simp) (by simp) (by simpa using hin)
    · exact .stays rfl rfl rfl

/-- Below 32 an advance of `off` does not wrap (R69). -/
theorem toNat_off_add_one {k : Offset} (h : k < 32#6) : (k + 1#6).toNat = k.toNat + 1 := by
  bv_omega

/-- Settles O30: `inpkt` is set where a capture begins (a store needs it set), and cleared by reset and a failed second
byte. -/
theorem inpktWrittenOnlyByFeed : Obligations.InpktWrittenOnlyByFeed := by
  intro s t h
  cases step_assemblerMove h with
  | stays hbuf hoff hin =>
    exact ⟨fun hclear hset => by simp [hin, hclear] at hset, fun hset hclear => by simp [hin, hset] at hclear⟩
  | resets hhead hbuf hoff hin => simp [hin, hhead]
  | begins he hfeed hbuf hoff hin => exact ⟨fun _ _ => ⟨he, hfeed⟩, fun _ hclear => by simp [hin] at hclear⟩
  | fails b he hfeed hb h2 hbuf hoff hin hevent =>
    obtain ⟨cmd, hhead, hd⟩ := hfeed
    exact ⟨fun _ hset => by simp [hin] at hset,
      fun _ _ => .inr ⟨he, h2.1, hoff.trans h2.1, hevent, cmd, b, hhead, hd, hb, h2.2⟩⟩
  | stores b he hfeed hb h2 hcapt hroom hbuf hoff hin => simp [hcapt, hin]

/-- Settles O31: the three moves that write `off`. -/
theorem offsetMovesOnlyByCapture : Obligations.OffsetMovesOnlyByCapture := by
  intro s t h hne
  cases step_assemblerMove h with
  | stays hbuf hoff hin => exact absurd hoff hne
  | resets hhead hbuf hoff hin => exact .inl ⟨hhead, hoff⟩
  | begins he hfeed hbuf hoff hin =>
    obtain ⟨cmd, hhead, hd⟩ := hfeed
    exact .inr ⟨he, cmd, _, hhead, hd, .inl ⟨rfl, hoff, hin, by rw [hbuf]; exact read_write_same s.buf 0#5 _⟩⟩
  | fails b he hfeed hb h2 hbuf hoff hin hevent => exact absurd hoff hne
  | stores b he hfeed hb h2 hcapt hroom hbuf hoff hin =>
    obtain ⟨cmd, hhead, hd⟩ := hfeed
    exact .inr ⟨he, cmd, b, hhead, hd, .inr ⟨hb, hcapt, hroom, by rw [hoff, toNat_off_add_one hroom], hin,
      by rw [hbuf, read_write_same]⟩⟩

/-- Settles O32: a raise and a FEED keep both bits. -/
theorem pathBitsWrittenOnlyByLifecycle : Obligations.PathBitsWrittenOnlyByLifecycle := by
  intro s t h hne
  obtain ⟨-, rfl⟩ | ⟨hhead, rfl⟩ | ⟨_, _, -, -, rfl⟩ | ⟨cmd, p, hhead, hd, rfl⟩ | ⟨cmd, hhead, hd, rfl⟩ |
    ⟨cmd, b, -, -, hfeed⟩ := step_next_cases h
  · simp at hne
  · exact .inl ⟨hhead, rfl, rfl⟩
  · simp at hne
  · exact .inr ⟨cmd, hhead, .inl ⟨p, hd, rfl, rfl⟩⟩
  · exact .inr ⟨cmd, hhead, .inr ⟨hd, rfl, rfl⟩⟩
  · obtain ⟨he, hsink, -, -⟩ := execFeed_keeps hfeed
    simp [he, hsink] at hne

/-- A step that is neither reset nor a raise keeps the fault mark (R117). -/
theorem step_fault_cases {s t : State} (h : step s = .next t) :
    (s.inputs.head? = some .reset ∧ t.fault = none) ∨
    (∃ inp r, s.inputs.head? = some inp ∧ inputAction inp = .raise r ∧ t = raise r (takeInput s)) ∨
    (s.inputs.head? ≠ some .reset ∧ t.fault = s.fault) := by
  obtain ⟨hin, rfl⟩ | ⟨hhead, rfl⟩ | hraise | ⟨cmd, p, hhead, -, rfl⟩ | ⟨cmd, hhead, -, rfl⟩ |
    ⟨cmd, b, hhead, -, hfeed⟩ := step_next_cases h
  · exact .inr (.inr ⟨by simp [hin], rfl⟩)
  · exact .inl ⟨hhead, rfl⟩
  · exact .inr (.inl hraise)
  · exact .inr (.inr ⟨by obtain h | h := hhead <;> simp [h], rfl⟩)
  · exact .inr (.inr ⟨by obtain h | h := hhead <;> simp [h], rfl⟩)
  · obtain ⟨-, -, hfault, -⟩ := execFeed_keeps hfeed
    exact .inr (.inr ⟨by simp [hhead], hfault⟩)

/-- Settles O15: reset clears the mark, a raise sets it only if it is clear, and every other step keeps it. -/
theorem faultMarkIsSticky : Obligations.FaultMarkIsSticky := by
  intro s t h
  obtain ⟨hhead, hfault⟩ | ⟨inp, r, hhead, ha, rfl⟩ | ⟨hhead, hfault⟩ := step_fault_cases h
  case inl => simp [hhead, hfault]
  case inr.inr =>
    exact ⟨fun r hr _ => hfault.trans hr, fun hreset => absurd hreset hhead,
      fun r hclear hr => by simp [hfault, hclear] at hr⟩
  case inr.inl =>
    refine ⟨fun q hq _ => by simp [hq], fun hreset => ?_, fun q hclear hq => ?_⟩
    · obtain rfl := Option.some.inj (hhead.symm.trans hreset)
      cases ha
    · obtain rfl : r = q := by simpa [hclear] using hq
      refine ⟨by simp [raise, takeInput, quiet, hclear], ?_⟩
      rw [hhead]
      obtain ⟨cmd, rfl | rfl, hd, rfl⟩ | ⟨rfl, ⟨cmd, rfl⟩ | ⟨cmd, b, rfl, hd⟩⟩ := inputAction_raise ha
      · exact .inl ⟨cmd, rfl, hd, .inl rfl⟩
      · exact .inl ⟨cmd, rfl, hd, .inr rfl⟩
      · exact .inr ⟨rfl, .inl ⟨cmd, rfl⟩⟩
      · exact .inr ⟨rfl, .inr ⟨cmd, b, rfl, hd⟩⟩

/-- Settles O54: only a store advances `off`, and only past a begun capture; a record needs the last byte's store. -/
theorem offsetRisesByOneAndARecordNeedsThirtyOne : Obligations.OffsetRisesByOneAndARecordNeedsThirtyOne := by
  intro s t h
  refine ⟨?rise, ?rises, ?marker, ?record⟩
  case rise =>
    cases step_assemblerMove h with
    | stays hbuf hoff hin => simp [hoff]
    | resets hhead hbuf hoff hin => simp [hoff]
    | begins he hfeed hbuf hoff hin => simp [hoff]
    | fails b he hfeed hb h2 hbuf hoff hin hevent => simp [hoff]
    | stores b he hfeed hb h2 hcapt hroom hbuf hoff hin => rw [hoff, toNat_off_add_one hroom]
  case rises =>
    intro hlt
    have hne : t.off ≠ s.off := fun heq => by simp [heq] at hlt
    obtain ⟨-, hzero⟩ | ⟨he, cmd, b, hhead, hd, -⟩ := offsetMovesOnlyByCapture s t h hne
    · bv_omega
    · exact ⟨he, cmd, b, hhead, hd⟩
  case marker =>
    intro cmd he hhead hd
    obtain ⟨rest, hin⟩ := List.head?_eq_some_iff.1 hhead
    rw [stepRunsTheDecodedInstruction s cmd rest _ hin hd, exec_feed] at h
    obtain rfl := Host.Outcome.next.inj ((execFeed_marker1 (by exact he)).symm.trans h)
    rfl
  case record =>
    intro r hr
    obtain ⟨-, -, -, hoff, -⟩ := recordsOnlyFromValidatedFrames s t r h hr
    exact hoff

end Sys2Proof.Machine
end

section
/-! The invariants of the assembler (10_state.md R20, R21; 20_memory.md R30): each is kept by every move. -/

namespace Sys2Proof.Machine

/-- Settles O34: a capture begins at (1, 1), a failed second byte leaves (1, 0), and a store advances below 32. -/
theorem stepKeepsTheAssemblyStates : Obligations.StepKeepsTheAssemblyStates := by
  intro s t hinv h
  cases step_assemblerMove h with
  | stays hbuf hoff hin => rwa [State.assemblyInv, hoff, hin]
  | resets hhead hbuf hoff hin => exact .inl ⟨hin, .inl hoff⟩
  | begins he hfeed hbuf hoff hin => exact .inr ⟨hin, by rw [hoff]; decide⟩
  | fails b he hfeed hb h2 hbuf hoff hin hevent => exact .inl ⟨hin, .inr (hoff.trans h2.1)⟩
  | stores b he hfeed hb h2 hcapt hroom hbuf hoff hin =>
    refine .inr ⟨hin, ?_⟩
    rw [hoff]
    bv_omega

/-- What the captured bytes are depends on `off` and the buffer alone (R21). -/
theorem captureInv_congr {s t : State} (hbuf : t.buf = s.buf) (hoff : t.off = s.off) (h : s.captureInv) :
    t.captureInv := by
  rwa [State.captureInv, hbuf, hoff]

/-- A state that captures has a byte (R20: (0, 1) is no assembler state). -/
theorem one_le_off_of_inpkt {s : State} (h : s.assemblyInv) (hin : s.inpkt = true) : 1#6 ≤ s.off := by
  obtain ⟨hin', -⟩ | ⟨-, hlo, -⟩ := h
  · exact absurd (hin.symm.trans hin') (by decide)
  · exact hlo

/-- A byte that is no 0x42, and 0x4D where it is the second, keeps the captured bytes what they are (R21). -/
theorem captureInv_store {s t : State} {b : Byte} (hb : b ≠ Config.marker1) (h2 : ¬ secondByteFails b s)
    (hlo : 1#6 ≤ s.off) (hroom : s.off < 32#6) (hbuf : t.buf = s.buf.write (s.off.setWidth 5) b)
    (hoff : t.off = s.off + 1#6) (h : s.captureInv) : t.captureInv := by
  obtain ⟨hfirst, hsecond, hrest⟩ := h
  have hother {a : Addr} (ha : a.toNat ≠ s.off.toNat) : t.buf.read a = s.buf.read a := by
    rw [hbuf, read_write_other]
    bv_omega
  have hsame {a : Addr} (ha : a.toNat = s.off.toNat) : t.buf.read a = b := by
    have : a = s.off.setWidth 5 := by bv_omega
    rw [hbuf, this, read_write_same]
  refine ⟨fun _ => ?_, fun htwo => ?_, fun a ha hlt => ?_⟩
  · rw [hother (by bv_omega), hfirst hlo]
  · by_cases hone : s.off = 1#6
    · rw [hsame (by rw [hone]; rfl)]
      exact not_not.1 fun hne => h2 ⟨hone, hne⟩
    · rw [hother (by bv_omega), hsecond (by bv_omega)]
  · by_cases heq : a.toNat = s.off.toNat
    · rwa [hsame heq]
    · rw [hother heq]
      exact hrest a ha (by bv_omega)

/-- Settles O35: a begun capture is one 0x42, and a store goes behind at least one captured byte. -/
theorem stepKeepsTheCapturedMarkers : Obligations.StepKeepsTheCapturedMarkers := by
  intro s t hinv hcapture h
  cases step_assemblerMove h with
  | stays hbuf hoff hin => exact captureInv_congr hbuf hoff hcapture
  | resets hhead hbuf hoff hin =>
    rw [State.captureInv, hoff]
    exact ⟨fun h => absurd h (by decide), fun h => absurd h (by decide), fun a _ h => absurd h (Nat.not_lt_zero _)⟩
  | begins he hfeed hbuf hoff hin =>
    rw [State.captureInv, hoff, hbuf]
    exact ⟨fun _ => read_write_same s.buf 0#5 Config.marker1, fun h => absurd h (by decide),
      fun a ha h => absurd h (Nat.not_lt.2 ha)⟩
  | fails b he hfeed hb h2 hbuf hoff hin hevent => exact captureInv_congr hbuf hoff hcapture
  | stores b he hfeed hb h2 hcapt hroom hbuf hoff hin =>
    exact captureInv_store hb h2 (one_le_off_of_inpkt hinv hcapt) hroom hbuf hoff hcapture

/-- Settles O36: the buffer stays, is emptied, or is written. -/
theorem stepKeepsTheBufferCanonical : Obligations.StepKeepsTheBufferCanonical := by
  intro s t hwf h
  cases step_assemblerMove h with
  | stays hbuf hoff hin => rwa [hbuf]
  | resets hhead hbuf hoff hin => rw [hbuf]; exact wf_nil
  | begins he hfeed hbuf hoff hin => rw [hbuf]; exact write_wf hwf 0#5 Config.marker1
  | fails b he hfeed hb h2 hbuf hoff hin hevent => rwa [hbuf]
  | stores b he hfeed hb h2 hcapt hroom hbuf hoff hin => rw [hbuf]; exact write_wf hwf _ b

/-- An address no entry has reads as unwritten. -/
theorem readCell_of_forall_ne {m : Memory} {a : Nat} (h : ∀ c ∈ m, c.1 ≠ a) :
    readCell m a = Config.unwrittenByte := by
  induction m with
  | nil => rfl
  | cons c m ih =>
    obtain ⟨hc, hm⟩ := List.forall_mem_cons.1 h
    rw [readCell, if_neg hc, ih hm]

/-- With the addresses rising, an entry is what its address reads as. -/
theorem readCell_of_mem {m : Memory} {c : Host.Cell} (h : m.Pairwise fun c d => c.1 < d.1) (hc : c ∈ m) :
    readCell m c.1 = c.2 := by
  induction m with
  | nil => simp at hc
  | cons d m ih =>
    obtain ⟨hd, hm⟩ := List.pairwise_cons.1 h
    obtain rfl | hc := List.mem_cons.1 hc
    · rw [readCell, if_pos rfl]
    · rw [readCell, if_neg (hd c hc).ne, ih hm hc]

/-- The entries of a canonical buffer are the addresses below 32 that read as a byte other than the unwritten one, each with
that byte. -/
theorem mem_iff_read {m : Memory} (h : m.wf) {c : Host.Cell} :
    c ∈ m ↔ c.1 < Config.frameLen ∧ m.read (BitVec.ofNat 5 c.1) = c.2 ∧ c.2 ≠ Config.unwrittenByte := by
  obtain ⟨hrising, hcells⟩ := h
  have hread (hlt : c.1 < Config.frameLen) : m.read (BitVec.ofNat 5 c.1) = readCell m c.1 := by
    rw [Memory.read, BitVec.toNat_ofNat, Nat.mod_eq_of_lt hlt]
  constructor
  · intro hc
    obtain ⟨hlt, hne⟩ := hcells c hc
    exact ⟨hlt, by rw [hread hlt, readCell_of_mem hrising hc], hne⟩
  · rintro ⟨hlt, hbyte, hne⟩
    rw [hread hlt] at hbyte
    by_contra hc
    have hnone : ∀ d ∈ m, d.1 ≠ c.1 := by
      intro d hd hdc
      have hd2 : d.2 = c.2 := by rw [← readCell_of_mem hrising hd, hdc, hbyte]
      exact hc (Prod.ext hdc hd2 ▸ hd)
    exact hne (hbyte.symm.trans (readCell_of_forall_ne hnone))

/-- Settles O37: the reads fix the entries, and the entries in rising order fix the list. -/
theorem buffersThatReadAlikeAreEqual : Obligations.BuffersThatReadAlikeAreEqual := by
  intro m n hm hn hread
  have hmem : ∀ c : Host.Cell, c ∈ m ↔ c ∈ n := fun c => by rw [mem_iff_read hm, mem_iff_read hn, hread]
  have hnodup {l : Memory} (h : l.Pairwise fun c d => c.1 < d.1) : l.Nodup :=
    h.imp fun {c d} hlt heq => hlt.ne (congrArg Prod.fst heq)
  refine ((List.perm_ext_iff_of_nodup (hnodup hm.1) (hnodup hn.1)).2 hmem).eq_of_pairwise ?_ hm.1 hn.1
  exact fun c d _ _ hcd hdc => absurd hcd hdc.asymm

end Sys2Proof.Machine
end

section
/-! The candidate's event as a function of what the 32 bytes read as (41_validate_decode.md R89, R94), and the bounds of its
sum (R85). -/

namespace Sys2Proof.Machine

/-- `Complete()` writes the candidate's event, where it has one, and nothing else (R89). -/
theorem complete_eq_setEvent (s : State) :
    complete s = { s with event := (candidateEvent s.buf s.sinkPresent).or s.event } := by
  unfold complete candidateEvent
  split_ifs <;> rfl

/-- Buffers that read alike are reported alike (R94). -/
theorem candidateEvent_congr {m n : Memory} (h : ∀ a : Addr, m.read a = n.read a) (sink : Bool) :
    candidateEvent m sink = candidateEvent n sink := by
  have hlen : lengthOk m = lengthOk n := by simp only [lengthOk, lengthField_eq, h]
  have hck : checksumOk m = checksumOk n := by simp only [checksumOk, checksum_eq_ofNat_sum, checksumField_eq, h]
  have hrecord : decodeRecord m = decodeRecord n := decodeRecord_congr fun a _ _ => h a
  simp only [candidateEvent, hlen, hck, hrecord]

/-- Settles O41. -/
theorem completeWritesNoState : Obligations.CompleteWritesNoState := by
  refine ⟨fun s => ?_, fun s t hread hsink hevent => ?_⟩
  · rw [complete_eq_setEvent]
  · rw [complete_eq_setEvent, complete_eq_setEvent, candidateEvent_congr hread, hsink, hevent]

/-- Each byte adds at most 255 to the sum. -/
theorem byteSum_le (m : Memory) (k n : Nat) : byteSum m (k + n) ≤ byteSum m k + 255 * n := by
  induction n with
  | zero => exact Nat.le_refl _
  | succ n ih =>
    have hbyte := (m.read (BitVec.ofNat 5 (k + n))).isLt
    rw [← Nat.add_assoc, byteSum]
    omega

/-- No byte lowers the sum. -/
theorem byteSum_ge (m : Memory) (k n : Nat) : byteSum m k ≤ byteSum m (k + n) := by
  induction n with
  | zero => exact Nat.le_refl _
  | succ n ih => exact ih.trans (Nat.le_add_right _ _)

/-- The first four bytes of the sum (R35). -/
theorem byteSum_four (m : Memory) :
    byteSum m 4 = byteSum m 2 + ((m.read 2#5).toNat + (m.read 3#5).toNat) :=
  Nat.add_assoc _ _ _

/-- The markers of a candidate add 0x42 + 0x4D to the sum (R53). -/
theorem byteSum_markers {s : State} (h : s.captureInv) (hoff : 2#6 ≤ s.off) : byteSum s.buf 2 = 143 := by
  obtain ⟨hfirst, hsecond, -⟩ := h
  have hbytes : byteSum s.buf 2 = 0 + (s.buf.read 0#5).toNat + (s.buf.read 1#5).toNat := rfl
  rw [hbytes, hfirst (by bv_omega), hsecond hoff]
  rfl

/-- Settles O39: two markers, where the length is right 0 and 28, and the rest of the 30 bytes between 0 and 255 each. -/
theorem candidateSumIsBounded : Obligations.CandidateSumIsBounded := by
  intro s hinv hoff
  have hmarkers := byteSum_markers hinv (by rw [hoff]; decide)
  have hle : byteSum s.buf 30 ≤ byteSum s.buf 2 + 255 * 28 := byteSum_le s.buf 2 28
  refine ⟨by omega, ?_, fun hlen => ?_⟩
  · exact Nat.mod_eq_of_lt (by omega : byteSum s.buf 30 < 2 ^ 16)
  · have hbytes := toNat_be16 (s.buf.read 2#5) (s.buf.read 3#5)
    rw [← lengthField_eq, hlen, BitVec.toNat_ofNat] at hbytes
    have hlo := (s.buf.read 3#5).isLt
    have hfour := byteSum_four s.buf
    have hge : byteSum s.buf 4 ≤ byteSum s.buf 30 := byteSum_ge s.buf 4 26
    have hle' : byteSum s.buf 30 ≤ byteSum s.buf 4 + 255 * 26 := byteSum_le s.buf 4 26
    omega

end Sys2Proof.Machine
end

section
/-! Stale bytes (10_state.md R22, R27): states alike but for bytes at `off` and above stay alike, with the same event, under
every operation, and so under every run. -/

namespace Sys2Proof.Machine

/-- The second of two states alike but for stale bytes is the first with another buffer. -/
theorem sameButStale_iff {s t : State} :
    s.sameButStale t ↔ ∃ m, t = { s with buf := m } ∧ ∀ a : Addr, a.toNat < s.off.toNat → s.buf.read a = m.read a := by
  constructor
  · rintro ⟨ht, hread⟩
    exact ⟨t.buf, ht, hread⟩
  · rintro ⟨m, rfl, hread⟩
    exact ⟨rfl, hread⟩

/-- At `off = 0` every byte is stale. -/
theorem sameButStale_beginCapture {s t : State} (h : s.sameButStale t) :
    (beginCapture s).sameButStale (beginCapture t) := by
  obtain ⟨m, rfl, -⟩ := sameButStale_iff.1 h
  exact ⟨rfl, fun a ha => absurd ha (Nat.not_lt_zero _)⟩

/-- A byte stored at `off` is the same in both states, and the one place that is no longer stale. -/
theorem sameButStale_storeByte {s t : State} (h : s.sameButStale t) (hroom : s.off < 32#6) (b : Byte) :
    (storeByte (s.off.setWidth 5) b s).sameButStale (storeByte (s.off.setWidth 5) b t) := by
  obtain ⟨m, rfl, hread⟩ := sameButStale_iff.1 h
  refine ⟨rfl, fun a ha => ?_⟩
  rw [storeByte_off, toNat_off_add_one hroom] at ha
  rw [storeByte_buf, storeByte_buf]
  by_cases hslot : a = s.off.setWidth 5
  · rw [hslot, read_write_same, read_write_same]
  · rw [read_write_other _ hslot, read_write_other _ hslot]
    exact hread a (by bv_omega)

/-- At `off = 32` no byte is stale, so the check sees the same 32 bytes. -/
theorem sameButStale_completionTrigger {s t : State} (h : s.sameButStale t) :
    (completionTrigger s).sameButStale (completionTrigger t) := by
  obtain ⟨m, rfl, hread⟩ := sameButStale_iff.1 h
  by_cases hoff : s.off = 32#6
  · have hall : ∀ a : Addr, s.buf.read a = m.read a := fun a => hread a (by rw [hoff]; exact a.isLt)
    rw [completionTrigger_of_eq hoff, completionTrigger_of_eq (s := { s with buf := m }) hoff, complete_eq_setEvent,
      complete_eq_setEvent, candidateEvent_congr hall]
    exact ⟨rfl, hread⟩
  · rwa [completionTrigger_of_ne hoff, completionTrigger_of_ne (s := { s with buf := m }) hoff]

/-- FEED of one byte keeps two states alike: its branch is chosen by fields that agree. -/
theorem execFeed_sameButStale (b : Byte) {s t : State} (h : s.sameButStale t) :
    ∃ s' t', execFeed b s = .next s' ∧ execFeed b t = .next t' ∧ s'.sameButStale t' := by
  obtain ⟨m, rfl, hread⟩ := sameButStale_iff.1 h
  have hquiet : (quiet s).sameButStale (quiet { s with buf := m }) := ⟨rfl, hread⟩
  obtain he | he := Bool.eq_false_or_eq_true s.enabled
  · refine ⟨_, _, execFeed_enabled he, execFeed_enabled he, ?_⟩
    split_ifs with hb h2 h3
    · exact sameButStale_storeByte (sameButStale_beginCapture hquiet) (beginCapture_off (quiet s) ▸ by decide) b
    · exact ⟨rfl, hread⟩
    · exact sameButStale_completionTrigger (sameButStale_storeByte hquiet h3.2 b)
    · exact hquiet
  · exact ⟨_, _, execFeed_disabled he, execFeed_disabled he, hquiet⟩

/-- One step keeps two states alike: the inputs that wait, and so the action, agree. -/
theorem step_sameButStale {s t : State} (h : s.sameButStale t) :
    ∃ s' t', step s = .next s' ∧ step t = .next t' ∧ s'.sameButStale t' := by
  obtain ⟨m, rfl, hread⟩ := sameButStale_iff.1 h
  have htake : (takeInput s).sameButStale (takeInput { s with buf := m }) := ⟨rfl, hread⟩
  have haction : nextAction { s with buf := m } = nextAction s := rfl
  unfold step
  rw [haction]
  cases nextAction s with
  | idle => exact ⟨_, _, rfl, rfl, htake⟩
  | reset => exact ⟨_, _, rfl, rfl, rfl, fun _ _ => rfl⟩
  | raise r => exact ⟨_, _, rfl, rfl, rfl, hread⟩
  | execute i =>
    cases i with
    | feed b => exact execFeed_sameButStale b htake
    | enable p => exact ⟨_, _, rfl, rfl, rfl, hread⟩
    | disable => exact ⟨_, _, rfl, rfl, rfl, hread⟩

/-- A step takes the oldest input (R40). -/
theorem step_inputs {s t : State} (h : step s = .next t) : t.inputs = s.inputs.tail := by
  obtain ⟨t', h', hin⟩ := everyStepAnswersNext s
  obtain rfl := Host.Outcome.next.inj (h'.symm.trans h)
  exact hin

/-- Settles O38, by induction on the inputs: each step emits the same event on both sides and leaves them alike. -/
theorem staleBytesAreUnobservable : Obligations.StaleBytesAreUnobservable := by
  intro ins
  induction ins with
  | nil =>
    intro s t h
    obtain ⟨m, rfl, hread⟩ := sameButStale_iff.1 h
    exact ⟨rfl, rfl, hread⟩
  | cons inp ins ih =>
    intro s t h
    have hsupplied : State.sameButStale { s with inputs := inp :: ins } { t with inputs := inp :: ins } := by
      obtain ⟨m, rfl, hread⟩ := sameButStale_iff.1 h
      exact ⟨rfl, hread⟩
    obtain ⟨s', t', hs, ht, hst⟩ := step_sameButStale hsupplied
    have hevent : t'.event = s'.event := by rw [hst.1]
    obtain ⟨hevents, hstates⟩ := ih s' t' hst
    rw [observe_cons hs (step_inputs hs), observe_cons ht (step_inputs ht), hevent, hevents]
    exact ⟨rfl, hstates⟩

end Sys2Proof.Machine
end

section
/-! Runs put together from shorter ones (70_reset_and_hazards.md R139): a step sees no input behind the oldest one, so a run
of two lists is the run of the second from where the first leaves the block. -/

namespace Sys2Proof.Machine

/-- The completion trigger neither reads nor writes the waiting inputs. -/
theorem completionTrigger_setInputs (s : State) (ins : List Input) :
    completionTrigger { s with inputs := ins } = { completionTrigger s with inputs := ins } := by
  by_cases hoff : s.off = 32#6
  · rw [completionTrigger_of_eq hoff, completionTrigger_of_eq (s := { s with inputs := ins }) hoff,
      complete_eq_setEvent, complete_eq_setEvent]
  · rw [completionTrigger_of_ne hoff, completionTrigger_of_ne (s := { s with inputs := ins }) hoff]

/-- FEED neither reads nor writes the waiting inputs, and does not read the event (20_memory.md R38). -/
theorem execFeed_setPorts {b : Byte} {s t : State} (h : execFeed b s = .next t) (e : Option Event)
    (ins : List Input) :
    execFeed b { s with event := e, inputs := ins } = .next { t with inputs := ins } := by
  obtain he | he := Bool.eq_false_or_eq_true s.enabled
  · rw [execFeed_enabled he] at h
    rw [execFeed_enabled (s := { s with event := e, inputs := ins }) he]
    split_ifs at h ⊢ <;> obtain rfl := Host.Outcome.next.inj h
    · rfl
    · rfl
    · exact congrArg _ (completionTrigger_setInputs (storeByte (s.off.setWidth 5) b (quiet s)) ins)
    · rfl
  · obtain rfl := Host.Outcome.next.inj ((execFeed_disabled he).symm.trans h)
    exact execFeed_disabled he

/-- A step sees no input behind the oldest one (R40). -/
theorem step_setRest {inp : Input} {s t : State} (h : step { s with inputs := [inp] } = .next t)
    (rest : List Input) : step { s with inputs := inp :: rest } = .next { t with inputs := rest } := by
  obtain ⟨hin, -⟩ | ⟨_, _, hin, hcases⟩ := step_cases { s with inputs := [inp] }
  · cases hin
  · cases hin
    obtain ⟨rfl, -⟩ | ⟨r, hr, -⟩ | ⟨i, hi, -⟩ := hcases
    · cases h
      rfl
    · rw [step_of_raise rfl hr] at h ⊢
      cases h
      rfl
    · rw [step_of_execute rfl hi] at h ⊢
      cases i with
      | feed b => exact execFeed_setPorts h none rest
      | enable p => cases h; rfl
      | disable => cases h; rfl

/-- The state one input leads to. -/
def process (inp : Input) (s : State) : State := (observe [inp] s).2

/-- With that input waiting, the state is the next one. -/
theorem step_process (inp : Input) (rest : List Input) (s : State) :
    step { s with inputs := inp :: rest } = .next { process inp s with inputs := rest } := by
  obtain ⟨t, ht, hin⟩ := everyStepAnswersNext { s with inputs := [inp] }
  rw [process, observe_cons ht hin]
  exact step_setRest ht rest

/-- The first input's event, then the observation of the rest from where it leads, counted one later. -/
theorem observe_process (inp : Input) (ins : List Input) (s : State) :
    observe (inp :: ins) s =
      ((process inp s).event.toList.map (fun e => (0, e)) ++
        (observe ins (process inp s)).1.map (fun p => (p.1 + 1, p.2)), (observe ins (process inp s)).2) :=
  observe_cons (t := { process inp s with inputs := ins }) (step_process inp ins s) rfl

/-- The observation of two lists, the second from where the first leaves the block. -/
theorem observe_append (xs ys : List Input) (s : State) :
    observe (xs ++ ys) s =
      ((observe xs s).1 ++ (observe ys (observe xs s).2).1.map (fun p => (p.1 + xs.length, p.2)),
        (observe ys (observe xs s).2).2) := by
  induction xs generalizing s with
  | nil => exact Prod.ext (List.map_id _).symm rfl
  | cons x xs ih =>
    rw [List.cons_append, observe_process, observe_process, ih]
    simp [Function.comp_def, Nat.add_assoc]

/-- A FEED's event, then the observation of the FEEDs after it, counted one later (R77). -/
theorem observe_feed {b : Byte} {s t : State} (h : execFeed b s = .next t) (bs : List Byte) :
    observe (feedInputs (b :: bs)) s =
      (t.event.toList.map (fun e => (0, e)) ++ (observe (feedInputs bs) t).1.map (fun p => (p.1 + 1, p.2)),
        (observe (feedInputs bs) t).2) :=
  observe_feedInputs_cons (t := { t with inputs := feedInputs bs }) (execFeed_setPorts h none (feedInputs bs))

theorem feedInputs_append (bs cs : List Byte) : feedInputs (bs ++ cs) = feedInputs bs ++ feedInputs cs :=
  List.map_append

@[simp] theorem length_feedInputs (bs : List Byte) : (feedInputs bs).length = bs.length :=
  List.length_map _

end Sys2Proof.Machine
end

section
/-! FEEDs that change nothing: while the path is closed (42_lifecycle.md R99, R104) and while the block is parked
(60_exceptions.md R107). -/

namespace Sys2Proof.Machine

/-- While disabled a run of FEEDs only takes its inputs and drops the event of the step before (R104). -/
theorem observe_feedInputs_disabled (bs : List Byte) {s : State} (he : s.enabled = false) :
    (observe (feedInputs bs) s).1 = [] ∧ quiet (observe (feedInputs bs) s).2 = quiet { s with inputs := [] } := by
  induction bs generalizing s with
  | nil => exact ⟨rfl, rfl⟩
  | cons b bs ih =>
    obtain ⟨hevents, hstate⟩ := ih (s := quiet s) he
    rw [observe_feed (execFeed_disabled he), hevents]
    exact ⟨rfl, hstate⟩

/-- Settles O42. -/
theorem disabledFeedsAreSilent : Obligations.DisabledFeedsAreSilent :=
  fun bs _ he => observe_feedInputs_disabled bs he

/-- DISABLE as one input. -/
theorem process_disable (s : State) :
    process (.txn (encode .disable)) s = { closePath (quiet s) with inputs := [] } := rfl

/-- ENABLE as one input: it does not see the event of the step before. -/
theorem process_enable (p : Bool) (s : State) :
    process (.txn (encode (.enable p))) s = { openPath p (quiet s) with inputs := [] } := by
  cases p <;> rfl

/-- Settles O43: DISABLE closes the path, the FEEDs find it closed, and ENABLE writes both path bits again. -/
theorem captureSurvivesDisableAndEnable : Obligations.CaptureSurvivesDisableAndEnable := by
  intro bs p s
  obtain ⟨hevents, hstate⟩ :=
    observe_feedInputs_disabled bs (s := process (.txn (encode .disable)) s) (by rw [process_disable]; rfl)
  rw [List.cons_append, observe_process, observe_append, observe_process, observe_nil, hevents, process_enable, hstate,
    process_disable]
  rfl

/-- The codes of two stretches of events. -/
theorem diagCodes_append (es fs : List (Nat × Event)) : diagCodes (es ++ fs) = diagCodes es ++ diagCodes fs := by
  induction es with
  | nil => rfl
  | cons e es ih =>
    obtain ⟨n, r | c⟩ := e
    · exact ih
    · exact congrArg (c :: ·) ih

/-- The codes do not depend on the step indexes. -/
theorem diagCodes_shift (es : List (Nat × Event)) : diagCodes (es.map fun p => (p.1 + 1, p.2)) = diagCodes es := by
  induction es with
  | nil => rfl
  | cons e es ih =>
    obtain ⟨n, r | c⟩ := e
    · exact ih
    · exact congrArg (c :: ·) ih

/-- Settles O49, by induction on the bytes: each is ignored (R72), with a DESYNC unless it is 0x4D. -/
theorem parkedBytesReemitDesync : Obligations.ParkedBytesReemitDesync := by
  intro bs
  induction bs with
  | nil => exact fun s _ _ _ => ⟨rfl, rfl⟩
  | cons b bs ih =>
    intro s he hparked hbs
    obtain ⟨hb, hbs⟩ := not_or.1 (List.mem_cons.not.1 hbs)
    obtain ⟨t, hfeed, -⟩ := exec_next (.feed b) s
    obtain ⟨hkeep, hevent⟩ :=
      feedIgnoredByteChangesNothing b s t he (Ne.symm hb) hfeed (.inl ⟨hparked.2, .inr hparked.1⟩)
    obtain ⟨e, rfl⟩ : ∃ e, t = { s with event := e } := ⟨t.event, hkeep⟩
    obtain ⟨hcodes, hstate⟩ := ih { s with event := e } he hparked hbs
    rw [observe_feed hfeed, diagCodes_append, diagCodes_shift, hcodes, hevent, List.countP_cons]
    refine ⟨?_, hstate⟩
    by_cases hb2 : b = 0x4D#8
    · simp [hb2, diagCodes]
    · simp [hb2, hparked.1, diagCodes, List.replicate_succ]

end Sys2Proof.Machine
end

section
/-! Frames fed byte by byte (40_assembler.md R69, R70): what a begun frame leaves in the block, and that the 32nd byte of a
frame reports the candidate and nothing else is reported. -/

namespace Sys2Proof.Machine

/-- The bytes begin as a frame does, and no byte after the first begins another: 0x42, then 0x4D, then no 0x42. -/
structure BeginsFrame (f : List Byte) : Prop where
  marker1 : f.getD 0 0#8 = Config.marker1
  marker2 : 2 ≤ f.length → f.getD 1 0#8 = Config.marker2
  noMarker1 : ∀ i, 1 ≤ i → i < f.length → f.getD i 0#8 ≠ Config.marker1

/-- The block takes bytes and has captured exactly these (10_state.md R21). -/
structure HasCaptured (f : List Byte) (s : State) : Prop where
  enabled : s.enabled = true
  inpkt : s.inpkt = true
  off : s.off.toNat = f.length
  bytes : ∀ a : Addr, a.toNat < f.length → s.buf.read a = f.getD a.toNat 0#8

/-- A longer beginning of a frame is a beginning and one byte that is no 0x42, and 0x4D where it is the second. -/
theorem BeginsFrame.of_concat {f : List Byte} {b : Byte} (hne : f ≠ []) (h : BeginsFrame (f ++ [b])) :
    BeginsFrame f ∧ b ≠ Config.marker1 ∧ (f.length = 1 → b = Config.marker2) := by
  have hpos := List.length_pos_iff.2 hne
  have hlen : (f ++ [b]).length = f.length + 1 := List.length_append
  have hold {i : Nat} (hi : i < f.length) : (f ++ [b]).getD i 0#8 = f.getD i 0#8 := List.getD_append _ _ _ _ hi
  have hnew : (f ++ [b]).getD f.length 0#8 = b := by simp
  refine ⟨⟨?_, fun htwo => ?_, fun i hlo hhi => ?_⟩, ?_, fun hone => ?_⟩
  · rw [← hold hpos, h.marker1]
  · rw [← hold (by omega), h.marker2 (by omega)]
  · rw [← hold hhi]
    exact h.noMarker1 i hlo (by omega)
  · rw [← hnew]
    exact h.noMarker1 f.length hpos (by omega)
  · rw [← hnew, hone]
    exact h.marker2 (by omega)

/-- The byte written behind the captured ones completes what the buffer holds of the frame. -/
theorem HasCaptured.read_write {f : List Byte} {s : State} (h : HasCaptured f s) (hroom : f.length < 32) (b : Byte)
    {a : Addr} (ha : a.toNat < (f ++ [b]).length) :
    (s.buf.write (s.off.setWidth 5) b).read a = (f ++ [b]).getD a.toNat 0#8 := by
  have hoff := h.off
  rw [List.length_append, List.length_singleton] at ha
  by_cases hlast : a.toNat = f.length
  · rw [show a = s.off.setWidth 5 by bv_omega, read_write_same]
    rw [show (s.off.setWidth 5).toNat = f.length by bv_omega]
    simp
  · rw [read_write_other _ (by bv_omega), List.getD_append _ _ _ _ (by omega)]
    exact h.bytes a (by omega)

/-- A 0x42 while enabled leaves a capture of that byte, whatever was captured before (R67). -/
theorem execFeed_beginsCapture {s : State} (he : s.enabled = true) :
    ∃ t, execFeed Config.marker1 s = .next t ∧ t.event = none ∧ t.sinkPresent = s.sinkPresent ∧
      HasCaptured [Config.marker1] t := by
  refine ⟨_, execFeed_marker1 he, rfl, rfl, he, rfl, rfl, fun a ha => ?_⟩
  have : a = 0#5 := by rw [List.length_singleton] at ha; bv_omega
  rw [this]
  exact read_write_same s.buf 0#5 Config.marker1

/-- The next byte of a frame that is not yet complete is captured behind the others, with no event (R69). -/
theorem execFeed_capturesNext {f : List Byte} {b : Byte} {s : State} (h : HasCaptured f s) (hpos : 1 ≤ f.length)
    (hroom : f.length < 31) (hb : b ≠ Config.marker1) (h2 : f.length = 1 → b = Config.marker2) :
    ∃ t, execFeed b s = .next t ∧ t.event = none ∧ t.sinkPresent = s.sinkPresent ∧ HasCaptured (f ++ [b]) t := by
  have hoff := h.off
  have hbelow : s.off < 31#6 := by bv_omega
  obtain ⟨-, hstore, -⟩ := feedStoresWhileCapturing b s h.enabled
  refine ⟨_, hstore hb (fun hfail => hfail.2 (h2 (by rw [← hoff, hfail.1]; rfl))) h.inpkt hbelow, rfl, rfl, h.enabled,
    h.inpkt, ?_, fun a ha => h.read_write (by omega) b ha⟩
  rw [List.length_append, List.length_singleton, ← hoff]
  exact toNat_off_add_one (by bv_omega)

/-- The observation of one more FEED. -/
theorem observe_feedInputs_concat {f : List Byte} {b : Byte} {s t : State}
    (h : execFeed b (observe (feedInputs f) s).2 = .next t) :
    (observe (feedInputs (f ++ [b])) s).1 =
        (observe (feedInputs f) s).1 ++ t.event.toList.map (fun e => (f.length, e)) ∧
      (observe (feedInputs (f ++ [b])) s).2 = { t with inputs := [] } := by
  rw [feedInputs_append, observe_append, observe_feed h, length_feedInputs]
  simp [feedInputs, observe_nil, Function.comp_def]

/-- The first bytes of a frame, fewer than 32, emit nothing and are captured (R69, R70). -/
theorem observe_beginsFrame {f : List Byte} (hf : BeginsFrame f) (hpos : 1 ≤ f.length) (hlt : f.length < 32) {s : State}
    (he : s.enabled = true) :
    (observe (feedInputs f) s).1 = [] ∧ HasCaptured f (observe (feedInputs f) s).2 ∧
      (observe (feedInputs f) s).2.sinkPresent = s.sinkPresent := by
  induction f using List.reverseRecOn with
  | nil => simp at hpos
  | append_singleton f b ih =>
    by_cases hnil : f = []
    · subst hnil
      obtain rfl : b = Config.marker1 := hf.marker1
      obtain ⟨t, hfeed, hevent, hsink, hcapt⟩ := execFeed_beginsCapture he
      obtain ⟨hevents, hstate⟩ := observe_feedInputs_concat (f := []) (s := s) (execFeed_setPorts hfeed _ [])
      rw [hevents, hstate, hevent]
      exact ⟨rfl, ⟨hcapt.enabled, hcapt.inpkt, hcapt.off, hcapt.bytes⟩, hsink⟩
    · rw [List.length_append, List.length_singleton] at hlt
      have hpos := List.length_pos_iff.2 hnil
      obtain ⟨hbegins, hb, h2⟩ := hf.of_concat hnil
      obtain ⟨hsilent, hbefore, hsinkBefore⟩ := ih hbegins hpos (by omega)
      obtain ⟨t, hfeed, hevent, hsink, hcapt⟩ := execFeed_capturesNext hbefore hpos (by omega) hb h2
      obtain ⟨hevents, hstate⟩ := observe_feedInputs_concat hfeed
      rw [hevents, hstate, hevent, hsilent]
      exact ⟨rfl, ⟨hcapt.enabled, hcapt.inpkt, hcapt.off, hcapt.bytes⟩, hsink.trans hsinkBefore⟩

/-- Settles O47. -/
theorem truncatedFrameIsSilent : Obligations.TruncatedFrameIsSilent := by
  intro f s hpos hlt he hfirst hsecond hrest
  obtain ⟨hsilent, hcapt, -⟩ := observe_beginsFrame ⟨hfirst, hsecond, hrest⟩ hpos (by omega) he
  exact ⟨hsilent, hcapt.off, hcapt.inpkt, hcapt.bytes⟩

/-- The 32 bytes of a frame emit the event of one candidate, at byte 31, and the candidate is the frame (R70, R80). -/
theorem observe_frame {f : List Byte} (hf : BeginsFrame f) (hlen : f.length = 32) {s : State} (he : s.enabled = true) :
    ∃ m : Memory, (∀ a : Addr, m.read a = f.getD a.toNat 0#8) ∧
      (observe (feedInputs f) s).1 = (candidateEvent m s.sinkPresent).toList.map fun e => (31, e) := by
  induction f using List.reverseRecOn with
  | nil => simp at hlen
  | append_singleton f b _ =>
    have hlen31 : f.length = 31 := by simpa using hlen
    obtain ⟨hbegins, hb, -⟩ := hf.of_concat (List.ne_nil_of_length_pos (by omega))
    obtain ⟨hsilent, hcapt, hsink⟩ := observe_beginsFrame hbegins (by omega) (by omega) he
    have hoff : (observe (feedInputs f) s).2.off = 31#6 := BitVec.eq_of_toNat_eq (hcapt.off.trans hlen31)
    obtain ⟨hevents, -⟩ := observe_feedInputs_concat (execFeed_lastByte hcapt.enabled hcapt.inpkt hoff hb)
    refine ⟨_, fun a => ?_, by rw [hevents, hsilent, hsink, hlen31]; rfl⟩
    have hread := hcapt.read_write (by omega) b (a := a) (by rw [hlen]; exact a.isLt)
    rwa [hoff] at hread

section
variable {m : Memory} {f : List Byte} (hread : ∀ a : Addr, m.read a = f.getD a.toNat 0#8)
include hread

/-- A buffer that holds a frame reads at every offset as the frame. -/
theorem read_ofNat_of_frame {i : Nat} (hi : i < 32) : m.read (BitVec.ofNat 5 i) = f.getD i 0#8 := by
  rw [hread, BitVec.toNat_ofNat, Nat.mod_eq_of_lt hi]

/-- The sum a candidate is checked by is that of the frame's first 30 bytes (R82). -/
theorem sum_of_frame (hlen : f.length = 32) :
    ((List.range 30).map fun i => (m.read (BitVec.ofNat 5 i)).toNat).sum = listSum (f.take 30) := by
  refine congrArg List.sum (List.ext_getElem (by simp [hlen]) fun i h₁ h₂ => ?_)
  have hi : i < 30 := by simpa using h₁
  rw [List.getElem_map, List.getElem_map, List.getElem_range, read_ofNat_of_frame hread (by omega),
    List.getD_eq_getElem _ _ (by omega), List.getElem_take]

/-- The length check of a candidate, by the frame's bytes (R81). -/
theorem lengthOk_of_frame : lengthOk m = true ↔ be16 (f.getD 2 0#8) (f.getD 3 0#8) = 28#16 := by
  rw [lengthOk_eq_true, lengthField_eq, hread, hread]
  rfl

/-- The checksum check of a candidate, by the frame's bytes (R82, R83). -/
theorem checksumOk_of_frame (hlen : f.length = 32) :
    checksumOk m = true ↔ listSum (f.take 30) % 65536 = (f.getD 30 0#8).toNat * 256 + (f.getD 31 0#8).toNat := by
  rw [← Bool.not_eq_false, checksumOk_eq_false_iff, not_not, sum_of_frame hread hlen, hread, hread]
  rfl

/-- Field `k` of the candidate's record, by the frame's bytes (R86). -/
theorem decodeRecord_of_frame {k : Nat} (hk : k < 12) :
    (decodeRecord m).toList[k]? = some (be16 (f.getD (4 + 2 * k) 0#8) (f.getD (5 + 2 * k) 0#8)) := by
  rw [toList_decodeRecord, List.getElem?_map, List.getElem?_range hk, Option.map_some, read16_fieldAddr,
    read_ofNat_of_frame hread (by omega), read_ofNat_of_frame hread (by omega)]

end

/-- Settles O44: both checks of the candidate pass, so its event is its record. -/
theorem validFrameYieldsExactlyOneRecord : Obligations.ValidFrameYieldsExactlyOneRecord := by
  intro f s hlen he hsink hfirst hsecond hrest hlength hsum
  obtain ⟨m, hread, hevents⟩ := observe_frame ⟨hfirst, fun _ => hsecond, hlen ▸ hrest⟩ hlen he
  have hevent : candidateEvent m s.sinkPresent = some (.record (decodeRecord m)) :=
    candidateEvent_eq_record_iff.2
      ⟨(lengthOk_of_frame hread).2 hlength, (checksumOk_of_frame hread hlen).2 hsum, hsink, rfl⟩
  exact ⟨decodeRecord m, by rw [hevents, hevent]; rfl, fun _ hk => decodeRecord_of_frame hread hk⟩

/-- Settles O45: the first check of the candidate that fails is its event, whether or not a consumer is present. -/
theorem wrongFrameYieldsExactlyOneDiagnostic : Obligations.WrongFrameYieldsExactlyOneDiagnostic := by
  intro f s hlen he hfirst hsecond hrest
  obtain ⟨m, hread, hevents⟩ := observe_frame ⟨hfirst, fun _ => hsecond, hlen ▸ hrest⟩ hlen he
  rw [hevents]
  refine ⟨fun hlength => ?_, fun hlength hsum => ?_⟩
  · have hfail : lengthOk m = false := Bool.eq_false_iff.2 ((lengthOk_of_frame hread).not.2 hlength)
    simp [candidateEvent, hfail]
  · have hpass : lengthOk m = true := (lengthOk_of_frame hread).2 hlength
    have hfail : checksumOk m = false := Bool.eq_false_iff.2 ((checksumOk_of_frame hread hlen).not.2 hsum)
    simp [candidateEvent, hpass, hfail]

/-- A list without an element after its first has that element at no later index. -/
theorem getD_ne_of_not_mem_tail {f : List Byte} {x : Byte} (h : x ∉ f.tail) {i : Nat} (hlo : 1 ≤ i)
    (hhi : i < f.length) : f.getD i 0#8 ≠ x := by
  rintro rfl
  refine h (List.mem_iff_getElem?.2 ⟨i - 1, ?_⟩)
  rw [List.getElem?_tail, Nat.sub_add_cancel hlo, List.getD_eq_getElem _ _ hhi, List.getElem?_eq_getElem hhi]

/-- Settles O46: the frame FRAME writes is valid (O52), so it yields one record (O44), whose fields are the values written. -/
theorem writtenFrameIsReadBack : Obligations.WrittenFrameIsReadBack := by
  intro v res s he hsink hmark
  obtain ⟨-, hlayout⟩ := frameWritesTheWireLayout
  obtain ⟨hexpand, hlen, hfirst, hsecond, hlength, hfields, -, hck⟩ := hlayout { values := v, res := res }
  rw [hexpand]
  clear hexpand
  -- Only the layout counts from here on: with the 32 bytes written out every unification would compute them.
  simp only [Option.getD_none] at hck
  generalize frameBytes { values := v, res := res } = f at *
  have hsum := congrArg BitVec.toNat hck
  rw [toNat_be16, BitVec.toNat_ofNat] at hsum
  obtain ⟨r, hevents, hrecord⟩ := validFrameYieldsExactlyOneRecord f s hlen he hsink hfirst hsecond
    (fun i hlo hhi => getD_ne_of_not_mem_tail hmark hlo (hlen ▸ hhi)) hlength hsum.symm
  have hrv : r = v := by
    refine Record.toList_injective (List.ext_getElem? fun k => ?_)
    by_cases hk : k < 12
    · have hv : v.toList[k]? = some v.toList[k] := List.getElem?_eq_getElem (by simpa using hk)
      rw [hrecord k hk, hfields k _ hv, hv]
    · rw [List.getElem?_eq_none (by simpa using hk), List.getElem?_eq_none (by simpa using hk)]
  exact hrv ▸ hevents

end Sys2Proof.Machine
end

section
/-! Frames that lose their capture to a 0x42 inside them (40_assembler.md R74, 70_reset_and_hazards.md R133): after a 0x42
fewer than 31 bytes do not complete a candidate. -/

namespace Sys2Proof.Machine

/-- FEED advances `off` by at most one (R69). -/
theorem execFeed_off_le {b : Byte} {s t : State} (h : execFeed b s = .next t) : t.off.toNat ≤ s.off.toNat + 1 := by
  obtain ⟨-, h'⟩ | ⟨-, -, h'⟩ | ⟨-, -, -, h'⟩ | ⟨-, -, -, ⟨-, hroom⟩, h'⟩ | ⟨-, -, -, -, h'⟩ := execFeed_cases b s
  all_goals obtain rfl := Host.Outcome.next.inj (h'.symm.trans h)
  case inr.inr.inr.inl =>
    rw [completionTrigger_off, storeByte_off]
    exact (toNat_off_add_one hroom).le
  all_goals simp

/-- A FEED that does not complete a candidate emits nothing but DESYNC (R70). -/
theorem execFeed_event_of_off_ne {b : Byte} {s t : State} (h : execFeed b s = .next t) (he : s.enabled = true)
    (hoff : s.off ≠ 31#6) : t.event = none ∨ t.event = some (.diag .desync) := by
  obtain ⟨-, h'⟩ | ⟨⟨-, -, hlast⟩, -⟩ | ⟨-, -, t', h', hevent⟩ := execFeed_event_cases b he
  · obtain rfl := Host.Outcome.next.inj (h'.symm.trans h)
    exact .inr rfl
  · exact absurd hlast hoff
  · obtain rfl := Host.Outcome.next.inj (h'.symm.trans h)
    exact .inl hevent

/-- What a run leaves that completed no candidate: the path still enabled, `off` below 32, and no event but DESYNC. -/
structure NoCandidate (o : List (Nat × Event) × State) : Prop where
  enabled : o.2.enabled = true
  off : o.2.off.toNat < 32
  events : ∀ p ∈ o.1, p.2 = .diag .desync

/-- Two such runs, one after the other. -/
theorem NoCandidate.append {xs ys : List Input} {s : State} (hxs : NoCandidate (observe xs s))
    (hys : NoCandidate (observe ys (observe xs s).2)) : NoCandidate (observe (xs ++ ys) s) := by
  rw [observe_append]
  exact ⟨hys.enabled, hys.off, List.forall_mem_append.2 ⟨hxs.events, List.forall_mem_map.2 hys.events⟩⟩

/-- One FEED that emits at most a DESYNC, and such a run after it, are such a run. -/
theorem NoCandidate.feed {b : Byte} {bs : List Byte} {s t : State} (h : execFeed b s = .next t)
    (hevent : t.event = none ∨ t.event = some (.diag .desync)) (hbs : NoCandidate (observe (feedInputs bs) t)) :
    NoCandidate (observe (feedInputs (b :: bs)) s) := by
  rw [observe_feed h]
  refine ⟨hbs.enabled, hbs.off, List.forall_mem_append.2 ⟨?_, List.forall_mem_map.2 hbs.events⟩⟩
  obtain hevent | hevent := hevent <;> simp [hevent]

/-- FEEDs too few to take `off` to 32 complete no candidate. -/
theorem noCandidate_of_room {bs : List Byte} {s : State} (he : s.enabled = true)
    (hroom : s.off.toNat + bs.length < 32) : NoCandidate (observe (feedInputs bs) s) := by
  induction bs generalizing s with
  | nil => exact ⟨he, hroom, by simp [feedInputs, observe_nil]⟩
  | cons b bs ih =>
    rw [List.length_cons] at hroom
    obtain ⟨t, hfeed, -⟩ := exec_next (.feed b) s
    have hle := execFeed_off_le hfeed
    obtain ⟨ht, -⟩ := execFeed_keeps hfeed
    exact .feed hfeed (execFeed_event_of_off_ne hfeed he (by bv_omega)) (ih (ht.trans he) (by omega))

/-- A 0x42 and at most 30 bytes after it complete no candidate, whatever was captured before (R67). -/
theorem noCandidate_of_marker {bs : List Byte} {s : State} (he : s.enabled = true) (hlen : bs.length ≤ 30) :
    NoCandidate (observe (feedInputs (Config.marker1 :: bs)) s) := by
  obtain ⟨t, hfeed, hevent, -, hcapt⟩ := execFeed_beginsCapture he
  have hoff : t.off.toNat = 1 := hcapt.off
  exact .feed hfeed (.inl hevent) (noCandidate_of_room hcapt.enabled (by omega))

/-- A non-empty stretch of a list that has a 0x42 at its start. -/
theorem take_drop_eq_marker_cons {f : List Byte} {j k : Nat} (hj : j < f.length) (hmark : f.getD j 0#8 = Config.marker1)
    (hk : 1 ≤ k) : (f.drop j).take k = Config.marker1 :: (f.drop (j + 1)).take (k - 1) := by
  obtain ⟨k, rfl⟩ := Nat.exists_eq_add_of_le' hk
  rw [List.drop_eq_getElem_cons hj, List.take_succ_cons, ← hmark, List.getD_eq_getElem _ _ hj]
  rfl

/-- A frame with a second 0x42 completes no candidate after any number of its bytes: up to that 0x42 fewer than 32 follow the
first one, and from it on fewer than 32 follow it. -/
theorem noCandidate_of_interiorMarker {f : List Byte} {s : State} {j k : Nat} (hlen : f.length = 32)
    (he : s.enabled = true) (hfirst : f.getD 0 0#8 = Config.marker1) (hlo : 1 ≤ j) (hhi : j < 32)
    (hmark : f.getD j 0#8 = Config.marker1) (hk : 1 ≤ k) (hk32 : k ≤ 32) :
    NoCandidate (observe (feedInputs (f.take k)) s) := by
  have hprefix : ∀ i, 1 ≤ i → i ≤ 31 → NoCandidate (observe (feedInputs (f.take i)) s) := by
    intro i hi hi31
    rw [← List.drop_zero (l := f), take_drop_eq_marker_cons (by omega) hfirst hi]
    exact noCandidate_of_marker he (by rw [List.length_take]; omega)
  by_cases hkj : k ≤ j
  · exact hprefix k hk (by omega)
  · have hbefore := hprefix j hlo (by omega)
    rw [← Nat.add_sub_cancel' (show j ≤ k by omega), List.take_add,
      take_drop_eq_marker_cons (by omega) hmark (by omega), feedInputs_append]
    exact hbefore.append (noCandidate_of_marker hbefore.enabled (by rw [List.length_take]; omega))

/-- Settles O48: the whole frame is its first 32 bytes. -/
theorem interiorMarkerLosesTheFrame : Obligations.InteriorMarkerLosesTheFrame := by
  intro f s j hlen he hfirst hlo hhi hmark
  have hnone : ∀ k, 1 ≤ k → k ≤ 32 → NoCandidate (observe (feedInputs (f.take k)) s) := fun k =>
    noCandidate_of_interiorMarker hlen he hfirst hlo hhi hmark
  refine ⟨fun k hk hk32 hoff => ?_, ?_⟩
  · have hlt := (hnone k hk hk32).off
    rw [hoff] at hlt
    exact absurd hlt (by decide)
  · have hall := (hnone 32 (by decide) (Nat.le_refl _)).events
    rw [List.take_of_length_le hlen.le] at hall
    exact fun n e hmem => hall (n, e) hmem

end Sys2Proof.Machine
end

section
/-! Whole runs by their steps (70_reset_and_hazards.md R129, 60_exceptions.md R106, R112): each event of an observation is
that of one FEED, how many FEEDs a run is from its first record, and where each diagnostic code comes from. -/

namespace Sys2Proof.Machine

/-- A step emits an event only where it runs a FEED that does (R103, R106). -/
theorem step_event {s t : State} {e : Event} (h : step s = .next t) (he : t.event = some e) :
    ∃ cmd b, s.inputs.head? = some (.txn cmd) ∧ decode cmd = .instr (.feed b) ∧
      execFeed b (takeInput s) = .next t := by
  obtain ⟨-, rfl⟩ | ⟨-, rfl⟩ | ⟨_, _, -, -, rfl⟩ | ⟨_, _, -, -, rfl⟩ | ⟨_, -, -, rfl⟩ | hfeed := step_next_cases h
  case inr.inr.inr.inr.inr => exact hfeed
  all_goals simp at he

/-- An input that emits an event is a FEED word whose FEED emits it. -/
theorem process_event {inp : Input} {s : State} {e : Event} (h : (process inp s).event = some e) :
    ∃ cmd b t, inp = .txn cmd ∧ decode cmd = .instr (.feed b) ∧ execFeed b s = .next t ∧ t.event = some e := by
  obtain ⟨cmd, b, hhead, hd, hfeed⟩ := step_event (step_process inp [] s) h
  exact ⟨cmd, b, _, Option.some.inj hhead, hd, execFeed_setPorts hfeed s.event s.inputs, h⟩

/-- The word of a FEED is counted as one (R56). -/
theorem isFeedWord_of_decode {cmd : Cmd} {b : Byte} (h : decode cmd = .instr (.feed b)) :
    isFeedWord (.txn cmd) = true :=
  beq_iff_eq.2 (decode_eq_feed_iff.1 h).1

/-- An event of an observation is that of the first input, or one of the rest counted one later. -/
theorem mem_observe_cons {inp : Input} {ins : List Input} {s : State} {k : Nat} {e : Event}
    (h : (k, e) ∈ (observe (inp :: ins) s).1) :
    (k = 0 ∧ (process inp s).event = some e) ∨ ∃ n, k = n + 1 ∧ (n, e) ∈ (observe ins (process inp s)).1 := by
  rw [observe_process] at h
  obtain h | h := List.mem_append.1 h
  · obtain ⟨_, hevent, heq⟩ := List.mem_map.1 h
    cases heq
    exact .inl ⟨rfl, Option.mem_toList.1 hevent⟩
  · obtain ⟨⟨n, _⟩, hmem, heq⟩ := List.mem_map.1 h
    cases heq
    exact .inr ⟨n, rfl, hmem⟩

/-- Each event of an observation is that of the input whose index it has, from where the inputs before it lead. -/
theorem mem_observe {ins : List Input} {s : State} {k : Nat} {e : Event} (h : (k, e) ∈ (observe ins s).1) :
    ∃ inp, ins[k]? = some inp ∧ (process inp (observe (ins.take k) s).2).event = some e := by
  induction ins generalizing s k with
  | nil => simp [observe_nil] at h
  | cons inp ins ih =>
    obtain ⟨rfl, hevent⟩ | ⟨n, rfl, hmem⟩ := mem_observe_cons h
    · exact ⟨inp, rfl, hevent⟩
    · obtain ⟨inp', hget, hevent⟩ := ih hmem
      refine ⟨inp', hget, ?_⟩
      rw [List.take_succ_cons, observe_process]
      exact hevent

/-- A step emits at most one event, and only for a FEED word (R106). -/
theorem length_observe_le (ins : List Input) (s : State) : (observe ins s).1.length ≤ ins.countP isFeedWord := by
  induction ins generalizing s with
  | nil => exact Nat.le_refl _
  | cons inp ins ih =>
    have hrest := ih (process inp s)
    rw [observe_process, List.length_append, List.length_map, List.length_map, List.countP_cons]
    cases hevent : (process inp s).event with
    | none => simp only [Option.toList_none, List.length_nil]; omega
    | some e =>
      obtain ⟨cmd, b, -, rfl, hd, -, -⟩ := process_event hevent
      rw [if_pos (isFeedWord_of_decode hd), Option.toList_some, List.length_singleton]
      omega

/-! ### The first record -/

/-- Among these events there is no record. -/
def NoRecord (es : List (Nat × Event)) : Prop := ∀ n r, (n, .record r) ∉ es

/-- No record from the first input and none from the rest. -/
theorem noRecord_observe_cons {inp : Input} {ins : List Input} {s : State}
    (hfirst : ∀ r, (process inp s).event ≠ some (.record r)) (hrest : NoRecord (observe ins (process inp s)).1) :
    NoRecord (observe (inp :: ins) s).1 := by
  intro n r hmem
  obtain ⟨-, hevent⟩ | ⟨k, -, hmem⟩ := mem_observe_cons hmem
  · exact hfirst r hevent
  · exact hrest k r hmem

/-- A record comes from a FEED word while enabled with 31 bytes captured (R91). -/
theorem process_record {inp : Input} {s : State} {r : Record} (h : (process inp s).event = some (.record r)) :
    s.enabled = true ∧ s.off = 31#6 ∧ isFeedWord inp = true := by
  obtain ⟨cmd, b, t, rfl, hd, hfeed, hevent⟩ := process_event h
  obtain ⟨he, -, hoff, -⟩ := execFeed_record hfeed hevent
  exact ⟨he, hoff, isFeedWord_of_decode hd⟩

/-- An input advances `off` by at most one, and only if it is a FEED word (O54). -/
theorem process_off_le (inp : Input) (s : State) :
    (process inp s).off.toNat ≤ s.off.toNat + if isFeedWord inp = true then 1 else 0 := by
  obtain ⟨hle, hrises, -⟩ := offsetRisesByOneAndARecordNeedsThirtyOne _ _ (step_process inp [] s)
  by_cases hlt : s.off < (process inp s).off
  · obtain ⟨-, cmd, b, hhead, hd⟩ := hrises hlt
    obtain rfl := Option.some.inj hhead
    rwa [if_pos (isFeedWord_of_decode hd)]
  · exact (BitVec.not_lt.1 hlt).trans (Nat.le_add_right _ _)

/-- Inputs with too few FEED words to take `off` to 32 deliver no record. -/
theorem noRecord_of_few_feeds {ins : List Input} {s : State} (h : s.off.toNat + ins.countP isFeedWord < 32) :
    NoRecord (observe ins s).1 := by
  induction ins generalizing s with
  | nil => exact fun n r => List.not_mem_nil
  | cons inp ins ih =>
    rw [List.countP_cons] at h
    refine noRecord_observe_cons (fun r hr => ?_) (ih ?_)
    · obtain ⟨-, hoff, hfeed⟩ := process_record hr
      rw [hoff, if_pos hfeed] at h
      exact absurd h (Nat.not_lt.2 (Nat.add_le_add_left (Nat.le_add_left 1 _) 31))
    · have hle := process_off_le inp s
      omega

/-- The path is closed and nothing is captured, as after reset. -/
def State.closedAtZero (s : State) : Prop := s.enabled = false ∧ s.off = 0#6

/-- With the path closed no input moves `off` from 0 (R66). -/
theorem process_off_of_closedAtZero {s : State} (h : s.closedAtZero) (inp : Input) : (process inp s).off = 0#6 := by
  obtain ⟨he, hoff⟩ := h
  by_contra hne
  obtain ⟨-, hzero⟩ | ⟨he', -⟩ :=
    offsetMovesOnlyByCapture _ _ (step_process inp [] s) (fun heq => hne (heq.trans hoff))
  · exact hne hzero
  · exact absurd (he'.symm.trans he) (by decide)

/-- With the path closed no input delivers a record (R91). -/
theorem process_ne_record_of_disabled {s : State} (he : s.enabled = false) (inp : Input) (r : Record) :
    (process inp s).event ≠ some (.record r) :=
  fun hr => absurd ((process_record hr).1.symm.trans he) (by decide)

/-- Only an ENABLE that is processed opens the path (R95). -/
theorem process_enabled_of_not_opensPath {inp : Input} {s : State} (he : s.enabled = false)
    (hinp : opensPath inp = false) : (process inp s).enabled = false := by
  by_contra hne
  obtain ⟨-, hclosed, -⟩ | ⟨cmd, hhead, ⟨p, hd, -⟩ | ⟨-, hclosed, -⟩⟩ :=
    pathBitsWrittenOnlyByLifecycle _ _ (step_process inp [] s) (.inl fun heq => hne (heq.trans he))
  · exact hne hclosed
  · obtain hhead | hhead := hhead <;> obtain rfl := Option.some.inj hhead <;> simp [opensPath, hd] at hinp
  · exact hne hclosed

/-- Inputs before the first ENABLE deliver no record and leave `off` at 0, and so does that ENABLE; then `off` has to rise
to 32. -/
theorem noRecord_of_closedAtZero {pre : List Input} {inp : Input} {ins : List Input} {s : State} (h : s.closedAtZero)
    (hpre : ∀ i ∈ pre, opensPath i = false) (hins : ins.countP isFeedWord < 32) :
    NoRecord (observe (pre ++ inp :: ins) s).1 := by
  induction pre generalizing s with
  | nil =>
    refine noRecord_observe_cons (process_ne_record_of_disabled h.1 inp) (noRecord_of_few_feeds ?_)
    rw [process_off_of_closedAtZero h inp]
    simpa using hins
  | cons i pre ih =>
    obtain ⟨hi, hpre⟩ := List.forall_mem_cons.1 hpre
    have hclosed : (process i s).closedAtZero :=
      ⟨process_enabled_of_not_opensPath h.1 hi, process_off_of_closedAtZero h i⟩
    exact noRecord_observe_cons (process_ne_record_of_disabled h.1 i) (ih hclosed hpre)

/-- Settles O51: the reset state is closed with nothing captured. -/
theorem firstRecordNeedsThirtyTwoFeeds : Obligations.FirstRecordNeedsThirtyTwoFeeds :=
  fun _ _ _ hpre hins => noRecord_of_closedAtZero ⟨State.reset_enabled, State.reset_off⟩ hpre hins

/-! ### The diagnostic sink -/

/-- A FEED that reports an error class met its condition in the state before it (R105). -/
theorem execFeed_diag {b : Byte} {s t : State} {c : DiagCode} (h : execFeed b s = .next t)
    (hc : t.event = some (.diag c)) : c.condition b s := by
  obtain he | he := Bool.eq_false_or_eq_true s.enabled
  · obtain ⟨⟨hb, hoff, hb2⟩, h'⟩ | ⟨⟨hb, hin, hoff⟩, h'⟩ | ⟨-, -, t', h', hevent⟩ := execFeed_event_cases b he
    all_goals obtain rfl := Host.Outcome.next.inj (h'.symm.trans h)
    · obtain rfl : DiagCode.desync = c := by simpa using hc
      exact ⟨he, hoff, hb, hb2⟩
    · cases c with
      | desync => exact absurd hc (candidateEvent_ne_desync _ _)
      | lenMismatch => exact ⟨he, hin, hoff, hb, candidateEvent_eq_lenMismatch_iff.1 hc⟩
      | cksumMismatch => exact ⟨he, hin, hoff, hb, candidateEvent_eq_cksumMismatch_iff.1 hc⟩
    · simp [hevent] at hc
  · obtain rfl := Host.Outcome.next.inj ((execFeed_disabled he).symm.trans h)
    simp at hc

/-- The codes of some events are no more than the events. -/
theorem length_diagCodes_le (es : List (Nat × Event)) : (diagCodes es).length ≤ es.length := by
  induction es with
  | nil => exact Nat.le_refl _
  | cons e es ih =>
    obtain ⟨n, r | c⟩ := e
    · exact ih.trans (Nat.le_succ _)
    · exact Nat.succ_le_succ ih

/-- A code of some events is that of one of them. -/
theorem exists_of_mem_diagCodes {es : List (Nat × Event)} {c : DiagCode} (h : c ∈ diagCodes es) :
    ∃ k, (k, .diag c) ∈ es := by
  induction es with
  | nil => simp [diagCodes] at h
  | cons e es ih =>
    obtain ⟨n, r | c'⟩ := e
    · obtain ⟨k, hk⟩ := ih h
      exact ⟨k, List.mem_cons_of_mem _ hk⟩
    · obtain rfl | h := List.mem_cons.1 h
      · exact ⟨n, List.mem_cons_self⟩
      · obtain ⟨k, hk⟩ := ih h
        exact ⟨k, List.mem_cons_of_mem _ hk⟩

/-- Settles O53: what the sink logs is among what was emitted, and each emitted code is that of one FEED. -/
theorem loggedCodesComeFromTheirErrors : Obligations.LoggedCodesComeFromTheirErrors := by
  intro sink ins s logged hlogs
  have hsub := sink.keepsOrder _ _ hlogs
  refine ⟨hsub.length_le.trans ((length_diagCodes_le _).trans (length_observe_le ins s)), fun c hc => ?_⟩
  obtain ⟨k, hk⟩ := exists_of_mem_diagCodes (hsub.subset hc)
  obtain ⟨inp, hget, hevent⟩ := mem_observe hk
  obtain ⟨cmd, b, t, rfl, hd, hfeed, hdiag⟩ := process_event hevent
  exact ⟨k, cmd, b, hk, hget, hd, execFeed_diag hfeed hdiag⟩

end Sys2Proof.Machine
end
